-- ==== Sys2Proof/Word.lean ====
section
/-! DEFINITION. The data types of the engine: words, bytes, blocks and the operand field of a command.

00_scope.md R8, R13: words and bytes are unsigned and of fixed width; there is no signed quantity. -/

namespace Sys2Proof

/-- R13 Word: "an unsigned 32-bit integer". -/
abbrev Word := BitVec 32

/-- R13 Byte: "an integer 0 to 255". -/
abbrev Byte := BitVec 8

/-- R13 Block: "exactly 64 bytes (512 bits)". -/
abbrev Block := Vector Byte 64

/-- R13 State (H): "an ordered sequence of exactly 8 Words". -/
abbrev HashState := Vector Word 8

/-- R13 Message Schedule (W): "an ordered sequence of exactly 64 Words". -/
abbrev Schedule := Vector Word 64

/-- R54: the operand field `cmd[23:0]` of a command, an unsigned 24-bit number (R55). -/
abbrev Arg := BitVec 24

end Sys2Proof
end

