-- ==== Sys2Proof/Config.lean ====
section
/-! DEFINITION. What the spec leaves without a value: the free values of the model.

R7: every size of this hardware is fixed and the model takes none as an argument, so there is no implementation
parameter here. R12: `undefined` "holds no defined value: a model must not give it a value a proof can rely on". Each
constant below has no body, so nothing in Lean can evaluate it or prove a value of it. The first argument is the number
of the draw (the field `draws` of State counts them), the second the element. Logged in notes/assumptions/3.md, 4.md, 5.md
and 6.md. -/

namespace Sys2Proof

/-- `H[i]` while it holds no defined value (R16, R32, R151). Log 3, DESIGN CHOICE. -/
opaque Config.freeH : Nat → Nat → Word

/-- `BUF[i]` while it holds no defined value (R26, R32, R151). Logs 3 and 6, DESIGN CHOICE. -/
opaque Config.freeBuf : Nat → Nat → Byte

/-- `LEN` while it holds no defined value (R23, R32, R151). Log 3, DESIGN CHOICE. -/
opaque Config.freeLen : Nat → BitVec 64

/-- `W[i]` between compressions (R27, R32, R151). Logs 3 and 4, DESIGN CHOICE. -/
opaque Config.freeW : Nat → Nat → Word

/-- The registers `a` to `h` (elements 0 to 7), `T1` (8) and `T2` (9) between compressions (R28, R32, R151). Logs 3 and 4,
DESIGN CHOICE. -/
opaque Config.freeWork : Nat → Nat → Word

/-- The index `j` between compressions (R19, R32, R151). Logs 3 and 4, DESIGN CHOICE. -/
opaque Config.freeJ : Nat → BitVec 7

end Sys2Proof
end

