-- ==== Sys2Proof/Machine/State.lean ====
section
/-! DEFINITION. The state of one engine (10_state.md R15) and the state after reset (R32, R151).

R15: "The complete state of one engine is the following, and nothing else." The constants `K` and `H0` are definitions
(Machine/Constants.lean), `STATUS`, `DB` and `DX` are views (Machine/Flags.lean, Machine/Digest.lean). Two fields are the
model's own: `host` and `draws` (notes/assumptions/1.md and 5.md). -/

namespace Sys2Proof.Machine

/-- R21: the three values of `PHASE`; the code 3 is "never taken by the hardware", so it is not representable (log 7). -/
inductive Phase where
  /-- no session exists -/
  | idle
  /-- a session is open; bytes are accepted -/
  | active
  /-- the session is finalized; `H` is the Digest -/
  | done
deriving DecidableEq, Repr

/-- R57: the five values of `status`; "Values 5 to 15 are never returned" (log 7). -/
inductive Status where
  /-- the command was executed -/
  | ok
  /-- E_ILLEGAL: `op` is not assigned, or `arg` is out of range for a command other than PUTB -/
  | illegal
  /-- E_SEQ: the command is not permitted in the present phase -/
  | seq
  /-- E_VALUE: PUTB with `arg` above 255 -/
  | value
  /-- E_LENGTH: PUTB that would take the message past 2^64 - 1 bits -/
  | length
deriving DecidableEq, Repr

/-- R53: one response, the pair `(status, rdata)` that ends a command. -/
structure Response where
  status : Status
  rdata : Word
deriving DecidableEq, Repr

/-- R53, R135: what the host may do between responses: present a command word, or request a reset. -/
inductive HostEvent where
  | cmd (w : Word)
  | rst
deriving DecidableEq, Repr

/-- R28: the eight working registers. -/
structure Regs where
  a : Word
  b : Word
  c : Word
  d : Word
  e : Word
  f : Word
  g : Word
  h : Word
deriving DecidableEq, Repr

/-- R15: the transients, used inside one compression: the schedule `W` (R27), the registers `a` to `h`, `T1`, `T2` (R28)
and the index `j` (R19). -/
structure Work where
  w : Schedule
  regs : Regs
  t1 : Word
  t2 : Word
  j : BitVec 7
deriving DecidableEq, Repr

/-- R15: the state of the engine, its response outputs (R53), and the model's own `host` and `draws`. -/
structure State where
  /-- R16: the state accumulator `H` -/
  h : HashState
  /-- R26: the block buffer `BUF` -/
  buf : Block
  /-- R22: the fill count `N` -/
  n : BitVec 6
  /-- R23: the bit-length counter `LEN` -/
  len : BitVec 64
  /-- R21: `PHASE` -/
  phase : Phase
  /-- R19, R27, R28: the transients -/
  work : Work
  /-- R53: the response outputs; none while no response has been given since reset (R32, log 2) -/
  resp : Option Response
  /-- R14, R160: the events the host has still to issue, first event first (log 1) -/
  host : List HostEvent
  /-- how many draws of free values have been made; the number of the next (log 5) -/
  draws : Nat
deriving DecidableEq, Repr

/-- No command, no word and no event stops the engine: "every word has a defined response" (R135), a rejection is an answer
(R141), and "The engine never halts" (R160). So nobody raises a fault: the type has no constructor (log 14, safe). -/
inductive Fault
deriving DecidableEq, Repr

/-- Why a command has no meaning in this model. -/
inductive Refusal where
  /-- Raised by an arm of exec whose command has no meaning yet; safe, since the machine stops. No arm raises it. -/
  | notModelled (mnemonic : String)
deriving DecidableEq, Repr

/-- The transients while they hold no defined value (R19, R27, R28): free values of one draw (logs 3 and 4). -/
def Work.free (draw : Nat) : Work where
  w := Vector.ofFn fun i => Config.freeW draw i
  regs :=
    { a := Config.freeWork draw 0, b := Config.freeWork draw 1, c := Config.freeWork draw 2, d := Config.freeWork draw 3
      e := Config.freeWork draw 4, f := Config.freeWork draw 5, g := Config.freeWork draw 6, h := Config.freeWork draw 7 }
  t1 := Config.freeWork draw 8
  t2 := Config.freeWork draw 9
  j := Config.freeJ draw

/-- R32, R151: the state a reset request leaves: `PHASE` IDLE, `N` 0, no response pending, and everything else without a
defined value (free values of one draw, log 3). The host's remaining events are the host's own. -/
def State.afterReset (draw : Nat) (host : List HostEvent) : State where
  h := Vector.ofFn fun i => Config.freeH draw i
  buf := Vector.ofFn fun i => Config.freeBuf draw i
  n := 0
  len := Config.freeLen draw
  phase := .idle
  work := Work.free draw
  resp := none
  host := host
  draws := draw + 1

/-- R32: the machine right after reset, before the host issues anything. -/
def State.reset : State := State.afterReset 0 []

end Sys2Proof.Machine
end

