-- ==== Sys2Proof/Machine/Ops.lean ====
section
/-! DEFINITION. The named operations on the state: the two ways a command ends (R12 `respond`, `reject`), the reset request,
the codes the port carries, and the operations on the block buffer.

There is no memory: what stands in its place are index spaces inside the engine (20_memory.md R34, R35). -/

namespace Sys2Proof.Machine

/-- What a command answers: the next state (its response in the field `resp`), a fault or a refusal. -/
abbrev Result := Host.Outcome State Fault Refusal

/-- R21, column "Value": the two bits of `PHASE`. -/
def Phase.code : Phase → BitVec 2
  | .idle => 0
  | .active => 1
  | .done => 2

/-- R57, column `status`: the four bits of a response code. -/
def Status.code : Status → BitVec 4
  | .ok => 0
  | .illegal => 1
  | .seq => 2
  | .value => 3
  | .length => 4

/-- R12 `respond(v)`: "end the command with response `(status = OK, rdata = v)`". -/
def respond (v : Word) (s : State) : Result :=
  .next { s with resp := some { status := .ok, rdata := v } }

/-- R12 `reject(E)`, R141: taking an exception. The response is `(E, 0)` (R58, R137) and no state is written: no handler, no
saved register, no mode change. There is no return from it, because it "changes nothing that would need restoring"
(R142): the next command is executed normally. -/
def reject (e : Status) (s : State) : Result :=
  .next { s with resp := some { status := e, rdata := 0 } }

/-- R151: the reset request `rst`. It draws fresh free values for everything it leaves without a defined value. -/
def resetRequest (s : State) : State :=
  State.afterReset s.draws s.host

/-- R36: the word read big-endian from bytes `4i` to `4i+3` of a block. -/
def bufWord (B : Block) (i : Fin 16) : Word :=
  B[4 * i.val] ++ B[4 * i.val + 1] ++ B[4 * i.val + 2] ++ B[4 * i.val + 3]

/-- R91, R94: `BUF[N] <- b`. -/
def storeAtN (b : Byte) (s : State) : State :=
  { s with buf := s.buf.set s.n.toNat b s.n.isLt }

/-- R26: between commands "Bytes `BUF[N..64)` hold no defined value", so a command that wrote the buffer or `N` leaves free values
of a new draw there; the received bytes `BUF[0..N)` stand (log 6). -/
def forgetResidue (s : State) : State :=
  { s with
    buf := s.buf.mapIdx fun i b => if i < s.n.toNat then b else Config.freeBuf s.draws i
    draws := s.draws + 1 }

/-- R94: `BUF[i] <- 0x00` for `lo ≤ i < hi`. -/
def zeroFill (lo hi : Nat) (B : Block) : Block :=
  Vector.ofFn fun i => if lo ≤ i.val ∧ i.val < hi then 0 else B[i]

/-- R37: byte `k` of a 64-bit value, the most significant byte first: `v[63-8k : 56-8k]`. -/
def be64Byte (v : BitVec 64) (k : Nat) : Byte :=
  v.extractLsb' (56 - 8 * k) 8

/-- R37, R94: `BUF[56 + k] <- LEN[63-8k : 56-8k]` for `k = 0 .. 7`. -/
def putLength (v : BitVec 64) (B : Block) : Block :=
  Vector.ofFn fun i => if 56 ≤ i.val then be64Byte v (i.val - 56) else B[i]

end Sys2Proof.Machine
end

