-- ==== Sys2Proof/Machine/Flags.lean ====
section
/-! DEFINITION. The STATUS view.

10_state.md R20: "The engine has no flags, no condition codes and no carry, overflow, zero or sign bit"; so there is no flag
computation to define. R24: `STATUS` "is not a stored register; it is the 32-bit word RDS returns, assembled from `PHASE`
and `N`". -/

namespace Sys2Proof.Machine

/-- R24, R117: `zext_32(N) << 8 | zext_32(PHASE)`. -/
def statusWord (s : State) : Word :=
  (s.n.setWidth 32 <<< 8) ||| s.phase.code.setWidth 32

end Sys2Proof.Machine
end

