-- ==== Sys2Proof/Syntax.lean ====
section
/-! DEFINITION. The commands of the engine, one constructor per row of spec/opcode_table.json (30_encoding.md R56).

Each carries the whole operand field `arg = cmd[23:0]` as R55 has it: "used as it stands", never truncated before the
bound check, so that `INIT 1` or `PUTB 0x100` is a command (which the engine then rejects) and not another word. -/

namespace Sys2Proof

inductive Instr where
  /-- 0x01 INIT: open a session (R90). -/
  | init (arg : Arg)
  /-- 0x02 PUTB: absorb one message byte (R91). -/
  | putb (arg : Arg)
  /-- 0x03 FINAL: pad and finish (R94). -/
  | final (arg : Arg)
  /-- 0x10 RDS: read STATUS (R117). -/
  | rds (arg : Arg)
  /-- 0x11 RDL: read half of LEN (R118). -/
  | rdl (arg : Arg)
  /-- 0x12 RDH: read a state word (R119). -/
  | rdh (arg : Arg)
  /-- 0x13 RDB: read a digest byte (R120). -/
  | rdb (arg : Arg)
  /-- 0x14 RDX: read a hex character of the digest (R122). -/
  | rdx (arg : Arg)
  /-- 0x15 RDK: read a round constant (R85). -/
  | rdk (arg : Arg)
deriving DecidableEq, Repr

end Sys2Proof
end

