-- ==== Sys2Proof/Decode.lean ====
section
/-! DEFINITION. The command word: its two fields, the opcode map, the operand bounds, the decoder, the encoder.

30_encoding.md R54 to R56, R59, R62, R64, R65. A command is one 32-bit number; the engine fixes no byte order for it
(R39; notes/assumptions/11.md). -/

namespace Sys2Proof

/-- Why a word is no command. -/
inductive DecodeError where
  /-- R62: the `op` field is one of the 247 reserved values. -/
  | unassignedOp (op : BitVec 8)
deriving DecidableEq, Repr

/-- R54: `op = cmd[31:24]`. -/
def opField (w : Word) : BitVec 8 := w.extractLsb' 24 8

/-- R54: `arg = cmd[23:0]`. -/
def argField (w : Word) : Arg := w.extractLsb' 0 24

/-- R56, R62: the command is selected by `op` alone; every unassigned `op` is rejected. -/
def decode (w : Word) : Except DecodeError Instr :=
  match (opField w).toNat with
  | 0x01 => .ok (.init (argField w))
  | 0x02 => .ok (.putb (argField w))
  | 0x03 => .ok (.final (argField w))
  | 0x10 => .ok (.rds (argField w))
  | 0x11 => .ok (.rdl (argField w))
  | 0x12 => .ok (.rdh (argField w))
  | 0x13 => .ok (.rdb (argField w))
  | 0x14 => .ok (.rdx (argField w))
  | 0x15 => .ok (.rdk (argField w))
  | _ => .error (.unassignedOp (opField w))

/-- R56, column `op`. -/
def Instr.op : Instr → BitVec 8
  | .init _ => 0x01
  | .putb _ => 0x02
  | .final _ => 0x03
  | .rds _ => 0x10
  | .rdl _ => 0x11
  | .rdh _ => 0x12
  | .rdb _ => 0x13
  | .rdx _ => 0x14
  | .rdk _ => 0x15

/-- The operand a command carries. -/
def Instr.arg : Instr → Arg
  | .init a => a
  | .putb a => a
  | .final a => a
  | .rds a => a
  | .rdl a => a
  | .rdh a => a
  | .rdb a => a
  | .rdx a => a
  | .rdk a => a

/-- R59: "The bounds, as numbers: INIT 0, PUTB 255, FINAL 0, RDS 0, RDL 1, RDH 7, RDB 31, RDX 63, RDK 63." -/
def Instr.argBound : Instr → Nat
  | .init _ => 0
  | .putb _ => 255
  | .final _ => 0
  | .rds _ => 0
  | .rdl _ => 1
  | .rdh _ => 7
  | .rdb _ => 31
  | .rdx _ => 63
  | .rdk _ => 63

/-- R65: "The encoding of a line is `(op << 24) | arg`." -/
def encode (i : Instr) : Word := (i.op.setWidth 32 <<< 24) ||| i.arg.setWidth 32

/-- The host's view of the decoder: a word of `nbits` bits, numbered as spec/opcode_table.json numbers them (bit 0 the
least significant), is the 32-bit command word, zero above `nbits`. R64: no command is longer than 32 bits. -/
def decodeTableWord (nbits w : Nat) : Option Instr :=
  if nbits ≤ 32 then
    match decode (BitVec.ofNat 32 (w % 2 ^ nbits)) with
    | .ok i => some i
    | .error _ => none
  else none

end Sys2Proof
end

