-- ==== Sys2Proof/WellFormed.lean ====
section
/-! DEFINITION. Which commands are legal as words: the operand is within the command's bound (30_encoding.md R56 column
"Legal `arg`", R59). An ill-formed command is still a command of the engine: it is rejected, not unknown (R61 test 2). -/

namespace Sys2Proof

/-- R59: `arg` does not exceed the command's bound. -/
def Instr.wf (i : Instr) : Bool := decide (i.arg.toNat ≤ i.argBound)

end Sys2Proof
end

