-- ==== Sys2Proof/Machine/Operands.lean ====
section
/-! DEFINITION. The checks every command passes before it executes (30_encoding.md R59 to R61).

The operand forms are two (R43): direct, `arg` as it stands after the bound check, and implicit append at `N`, which is
`storeAtN` of Machine/Ops.lean. -/

namespace Sys2Proof.Machine

/-- R59: what an operand beyond the bound answers, "with `E_VALUE` if the command is PUTB, with `E_ILLEGAL` otherwise". -/
def argError : Instr → Status
  | .putb _ => .value
  | .init _ => .illegal
  | .final _ => .illegal
  | .rds _ => .illegal
  | .rdl _ => .illegal
  | .rdh _ => .illegal
  | .rdb _ => .illegal
  | .rdx _ => .illegal
  | .rdk _ => .illegal

/-- R60: the table "Which command is permitted in which phase". -/
def permitted : Instr → Phase → Bool
  | .init _, .idle => true
  | .init _, .active => true
  | .init _, .done => true
  | .putb _, .idle => false
  | .putb _, .active => true
  | .putb _, .done => false
  | .final _, .idle => false
  | .final _, .active => true
  | .final _, .done => false
  | .rds _, .idle => true
  | .rds _, .active => true
  | .rds _, .done => true
  | .rdl _, .idle => false
  | .rdl _, .active => true
  | .rdl _, .done => true
  | .rdh _, .idle => false
  | .rdh _, .active => true
  | .rdh _, .done => true
  | .rdb _, .idle => false
  | .rdb _, .active => false
  | .rdb _, .done => true
  | .rdx _, .idle => false
  | .rdx _, .active => false
  | .rdx _, .done => true
  | .rdk _, .idle => true
  | .rdk _, .active => true
  | .rdk _, .done => true

/-- R61, tests 2 and 3, in that order, and then the command's own part `run` (test 4 is PUTB's alone; test 1 is `decode`). -/
def checked (i : Instr) (s : State) (run : Result) : Result :=
  if i.argBound < i.arg.toNat then reject (argError i) s
  else if permitted i s.phase then run
  else reject .seq s

end Sys2Proof.Machine
end

