-- ==== Sys2Proof/Machine/Digest.lean ====
section
/-! DEFINITION. FORMATTER and the read commands RDS, RDL, RDH, RDB, RDX (45_digest.md; the views of 20_memory.md R38).

After the bound check an index is the low bits of `arg`, as wide as the index space (20_memory.md R34); no bit is lost. -/

namespace Sys2Proof.Machine

/-- R38: digest byte `i`, `DB[i] = H[i div 4][31 - 8·(i mod 4) : 24 - 8·(i mod 4)]`. -/
def digestByte (H : HashState) (i : BitVec 5) : Byte :=
  H[i.toNat / 4].extractLsb' (24 - 8 * (i.toNat % 4)) 8

/-- R121: `HexDigit(n)` as its ASCII code, `0x30 + n` for `n ≤ 9`, `0x61 + (n - 10)` for `n ≥ 10`. -/
def hexDigit (n : BitVec 4) : Byte :=
  if n.toNat ≤ 9 then 0x30 + n.setWidth 8 else 0x61 + (n.setWidth 8 - 10)

/-- R121: one byte as two characters, `byte[7:4]` first, then `byte[3:0]`. -/
def hexOfByte (b : Byte) (low : Bool) : Byte :=
  hexDigit (if low then b.extractLsb' 0 4 else b.extractLsb' 4 4)

/-- R123 (2): the nibble a hexadecimal character stands for, by the codes of R121; lower case only (R116). DESIGN CHOICE (log 19):
any other code stands for none. -/
def hexDigitValue (c : Byte) : Option (BitVec 4) :=
  if 0x30 ≤ c.toNat ∧ c.toNat ≤ 0x39 then some (BitVec.ofNat 4 (c.toNat - 0x30))
  else if 0x61 ≤ c.toNat ∧ c.toNat ≤ 0x66 then some (BitVec.ofNat 4 (c.toNat - 0x61 + 10))
  else none

/-- R121: character `i` of the digest, `DX[i]`, renders a nibble of `DB[i div 2]`. -/
def digestChar (H : HashState) (i : BitVec 6) : Byte :=
  hexOfByte (digestByte H (BitVec.ofNat 5 (i.toNat / 2))) (i.toNat % 2 == 1)

/-- R118: the half of `LEN` that RDL selects. -/
def lenHalf (len : BitVec 64) (high : BitVec 1) : Word :=
  if high = 0 then len.extractLsb' 0 32 else len.extractLsb' 32 32

/-- R117 RDS. -/
def execRds (arg : Arg) (s : State) : Result :=
  checked (.rds arg) s (respond (statusWord s) s)

/-- R118 RDL `s`. -/
def execRdl (arg : Arg) (s : State) : Result :=
  checked (.rdl arg) s (respond (lenHalf s.len (arg.setWidth 1)) s)

/-- R119 RDH `i`. -/
def execRdh (arg : Arg) (s : State) : Result :=
  checked (.rdh arg) s (respond s.h[(arg.setWidth 3).toNat] s)

/-- R120 RDB `i`: the byte zero-extended. -/
def execRdb (arg : Arg) (s : State) : Result :=
  checked (.rdb arg) s (respond ((digestByte s.h (arg.setWidth 5)).setWidth 32) s)

/-- R122 RDX `i`: the character code zero-extended. -/
def execRdx (arg : Arg) (s : State) : Result :=
  checked (.rdx arg) s (respond ((digestChar s.h (arg.setWidth 6)).setWidth 32) s)

end Sys2Proof.Machine
end

