-- ==== Sys2Proof/Machine/Constants.lean ====
section
/-! DEFINITION. The constant tables KROM and H0 (41_constants.md) and the command RDK, which reads the ROM.

R83: both are constants, "not fields of the machine state"; no command, reset or event changes them. -/

namespace Sys2Proof.Machine

/-- R79: the 64 values, in index order. -/
def kRows : List Word :=
  [0x428A2F98, 0x71374491, 0xB5C0FBCF, 0xE9B5DBA5, 0x3956C25B, 0x59F111F1, 0x923F82A4, 0xAB1C5ED5] ++
  [0xD807AA98, 0x12835B01, 0x243185BE, 0x550C7DC3, 0x72BE5D74, 0x80DEB1FE, 0x9BDC06A7, 0xC19BF174] ++
  [0xE49B69C1, 0xEFBE4786, 0x0FC19DC6, 0x240CA1CC, 0x2DE92C6F, 0x4A7484AA, 0x5CB0A9DC, 0x76F988DA] ++
  [0x983E5152, 0xA831C66D, 0xB00327C8, 0xBF597FC7, 0xC6E00BF3, 0xD5A79147, 0x06CA6351, 0x14292967] ++
  [0x27B70A85, 0x2E1B2138, 0x4D2C6DFC, 0x53380D13, 0x650A7354, 0x766A0ABB, 0x81C2C92E, 0x92722C85] ++
  [0xA2BFE8A1, 0xA81A664B, 0xC24B8B70, 0xC76C51A3, 0xD192E819, 0xD6990624, 0xF40E3585, 0x106AA070] ++
  [0x19A4C116, 0x1E376C08, 0x2748774C, 0x34B0BCB5, 0x391C0CB3, 0x4ED8AA4A, 0x5B9CCA4F, 0x682E6FF3] ++
  [0x748F82EE, 0x78A5636F, 0x84C87814, 0x8CC70208, 0x90BEFFFA, 0xA4506CEB, 0xBEF9A3F7, 0xC67178F2]

/-- R79: the round-constant ROM `K[0..64)`. -/
def kRom : Vector Word 64 := Vector.ofFn fun i => kRows.getD i 0

/-- R81: the initial-state constant `H0[0..8)`. -/
def h0 : HashState :=
  #v[0x6A09E667, 0xBB67AE85, 0x3C6EF372, 0xA54FF53A, 0x510E527F, 0x9B05688C, 0x1F83D9AB, 0x5BE0CD19]

/-- R79, column `p`: the prime each constant comes from; the first 8 are also those of `H0` (R81). -/
def tablePrimes : List Nat :=
  [2, 3, 5, 7, 11, 13, 17, 19, 23, 29, 31, 37, 41, 43, 47, 53] ++
  [59, 61, 67, 71, 73, 79, 83, 89, 97, 101, 103, 107, 109, 113, 127, 131] ++
  [137, 139, 149, 151, 157, 163, 167, 173, 179, 181, 191, 193, 197, 199, 211, 223] ++
  [227, 229, 233, 239, 241, 251, 257, 263, 269, 271, 277, 281, 283, 293, 307, 311]

/-- R78: `r` is floor(cuberoot(m)), "the largest integer `r` with `r^3 ≤ m`". -/
abbrev IsFloorCbrt (m r : Nat) : Prop := r ^ 3 ≤ m ∧ m < (r + 1) ^ 3

/-- R80: `r` is floor(sqrt(m)), "the largest integer `r` with `r^2 ≤ m`". -/
abbrev IsFloorSqrt (m r : Nat) : Prop := r ^ 2 ≤ m ∧ m < (r + 1) ^ 2

/-- R84: the ROM read at a 6-bit address. -/
def krom (i : BitVec 6) : Word := kRom[i.toNat]

/-- R85 RDK `i`: answers `K[arg]`, in every phase. -/
def execRdk (arg : Arg) (s : State) : Result :=
  checked (.rdk arg) s (respond (krom (arg.setWidth 6)) s)

end Sys2Proof.Machine
end

