-- ==== Sys2Proof/Machine/Alu.lean ====
section
/-! DEFINITION. The word arithmetic units (40_word_arithmetic.md): ADDER, SHIFTER, bitwise logic.

R77: "Every unit of this file is a total function of its operands, has no state, raises nothing". -/

namespace Sys2Proof.Machine

/-- R67 ADD32: addition modulo 2^32; the carry out of bit 31 is discarded (R20). -/
def add32 (x y : Word) : Word := x + y

/-- R68: the n-operand ADD32, a chain of two-operand ADD32. -/
def add32s (xs : List Word) : Word := xs.foldl add32 0

/-- R71 ROTR32 by a 5-bit amount; an amount of 0 is the identity. -/
def rotr32 (x : Word) (n : BitVec 5) : Word :=
  if n = 0 then x else (x >>> n.toNat) ||| (x <<< (32 - n.toNat))

/-- R72 SHR32: the logical right shift by a 5-bit amount. -/
def shr32 (x : Word) (n : BitVec 5) : Word := x >>> n.toNat

/-- R73: the mode input of the barrel shifter. -/
inductive ShiftMode where
  | rotate
  | shift
deriving DecidableEq, Repr

/-- R73: the barrel shifter, "one unit with a mode input (rotate or shift), a 32-bit data input and a 5-bit amount". -/
def barrelShifter (mode : ShiftMode) (x : Word) (n : BitVec 5) : Word :=
  match mode with
  | .rotate => rotr32 x n
  | .shift => shr32 x n

/-- R74 AND32. -/
def and32 (x y : Word) : Word := x &&& y

/-- R75 XOR32. -/
def xor32 (x y : Word) : Word := x ^^^ y

/-- R76 NOT32. -/
def not32 (x : Word) : Word := ~~~x

end Sys2Proof.Machine
end

