-- ==== Sys2Proof/Machine/Schedule.lean ====
section
/-! DEFINITION. EXPANDER, the message-schedule expander (43_schedule.md): as a function of the block (`expand`), and as the unit
that writes the transient `W` under the index `j` (`loadSchedule`, `expandStep`, `runExpander`). -/

namespace Sys2Proof.Machine

/-- R97 small sigma zero. -/
def smallSigma0 (x : Word) : Word := xor32 (xor32 (rotr32 x 7) (rotr32 x 18)) (shr32 x 3)

/-- R98 small sigma one. -/
def smallSigma1 (x : Word) : Word := xor32 (xor32 (rotr32 x 17) (rotr32 x 19)) (shr32 x 10)

/-- R100: the sum that makes `W[j]` from `W[j-2]`, `W[j-7]`, `W[j-15]`, `W[j-16]`. -/
def scheduleSum (w2 w7 w15 w16 : Word) : Word :=
  add32s [smallSigma1 w2, w7, smallSigma0 w15, w16]

/-- R99, R100: the first `16 + n` schedule words of a block. Every index the recurrence reads is in range. -/
def scheduleWords (B : Block) : Nat → List Word
  | 0 => List.ofFn (bufWord B)
  | n + 1 =>
    let ws := scheduleWords B n
    let j := 16 + n
    ws ++ [scheduleSum (ws.getD (j - 2) 0) (ws.getD (j - 7) 0) (ws.getD (j - 15) 0) (ws.getD (j - 16) 0)]

/-- R101 `Expand(B)`: the 64-word schedule, "a pure function of one Block". -/
def expand (B : Block) : Schedule := Vector.ofFn fun j => (scheduleWords B 48).getD j 0

/-- Repeat a step of the sequencer a fixed number of times (R114: the loop counts never depend on data). -/
def repeatStep {α : Type} (f : α → α) : Nat → α → α
  | 0, x => x
  | n + 1, x => repeatStep f n (f x)

/-- R99: `W[i] <- BufWord(B, i)` for `i = 0 .. 15`; the sequencer then stands at `j = 16`. -/
def loadSchedule (B : Block) (k : Work) : Work :=
  { k with w := Vector.ofFn fun i => if h : i.val < 16 then bufWord B ⟨i.val, h⟩ else k.w[i], j := 16 }

/-- R100, for the `j` of the sequencer; `j` advances by 1 and stops at 64 (R19). -/
def expandStep (k : Work) : Work :=
  if h : 16 ≤ k.j.toNat ∧ k.j.toNat < 64 then
    { k with
      w := k.w.set k.j.toNat (scheduleSum k.w[k.j.toNat - 2] k.w[k.j.toNat - 7] k.w[k.j.toNat - 15] k.w[k.j.toNat - 16]) h.2
      j := k.j + 1 }
  else k

/-- R101, R102: the schedule is expanded inside the compression, before round 0, in 48 steps. -/
def runExpander (B : Block) (k : Work) : Work := repeatStep expandStep 48 (loadSchedule B k)

end Sys2Proof.Machine
end

