-- ==== Sys2Proof/Machine/Compression.lean ====
section
/-! DEFINITION. MIXER and ACC (44_compression.md): the round, the fold, the compression of one block and the chaining of blocks.

Twice, as R109 has it: as a function in the simultaneous form (`roundOf`, `compress`), which the statements are written in,
and as the unit that updates the transients of State in the written order of R108 (`mixRound`, `runMixer`), which the
commands run. -/

namespace Sys2Proof.Machine

/-- R103 big sigma zero. -/
def bigSigma0 (x : Word) : Word := xor32 (xor32 (rotr32 x 2) (rotr32 x 13)) (rotr32 x 22)

/-- R104 big sigma one. -/
def bigSigma1 (x : Word) : Word := xor32 (xor32 (rotr32 x 6) (rotr32 x 11)) (rotr32 x 25)

/-- R105 choice. -/
def ch (x y z : Word) : Word := xor32 (and32 x y) (and32 (not32 x) z)

/-- R106 majority. -/
def maj (x y z : Word) : Word := xor32 (xor32 (and32 x y) (and32 x z)) (and32 y z)

/-- R107: `a <- S[0] || ... || h <- S[7]`. -/
def loadRegs (S : HashState) : Regs :=
  { a := S[0], b := S[1], c := S[2], d := S[3], e := S[4], f := S[5], g := S[6], h := S[7] }

/-- R108: `T1` of a round with constant `k` and schedule word `w`. -/
def tempOne (k w : Word) (r : Regs) : Word := add32s [r.h, bigSigma1 r.e, ch r.e r.f r.g, k, w]

/-- R108: `T2` of a round. -/
def tempTwo (r : Regs) : Word := add32 (bigSigma0 r.a) (maj r.a r.b r.c)

/-- R109: the round as a simultaneous update of the eight registers. -/
def roundOf (k w : Word) (r : Regs) : Regs :=
  { a := add32 (tempOne k w r) (tempTwo r), b := r.a, c := r.b, d := r.c
    e := add32 r.d (tempOne k w r), f := r.e, g := r.f, h := r.g }

/-- R110: the fold of the registers into the state from before the compression. -/
def foldRegs (S : HashState) (r : Regs) : HashState :=
  #v[add32 S[0] r.a, add32 S[1] r.b, add32 S[2] r.c, add32 S[3] r.d,
     add32 S[4] r.e, add32 S[5] r.f, add32 S[6] r.g, add32 S[7] r.h]

/-- R108: the registers after rounds `0 .. n-1`. -/
def roundsOf (S : HashState) (W : Schedule) : Nat → Regs
  | 0 => loadRegs S
  | n + 1 => roundOf (kRows.getD n 0) (W.toList.getD n 0) (roundsOf S W n)

/-- R111 `Compress(S, B)`. -/
def compress (S : HashState) (B : Block) : HashState := foldRegs S (roundsOf S (expand B) 64)

/-- R113 `Chain`: `Chain(S, []) = S`, `Chain(S, [P] ++ rest) = Chain(Compress(S, P), rest)`. -/
def chain : HashState → List Block → HashState
  | S, [] => S
  | S, P :: rest => chain (compress S P) rest

/-- R107 on the transients; the sequencer stands at `j = 0`. -/
def loadMixer (S : HashState) (k : Work) : Work := { k with regs := loadRegs S, j := 0 }

/-- R108: round `j`, the assignments in the order written; `j` advances by 1 and stops at 64 (R19). -/
def mixRound (k : Work) : Work :=
  if hj : k.j.toNat < 64 then
    let k0 := { k with t1 := tempOne kRom[k.j.toNat] k.w[k.j.toNat] k.regs, t2 := tempTwo k.regs }
    let k1 := { k0 with regs := { k0.regs with h := k0.regs.g } }
    let k2 := { k1 with regs := { k1.regs with g := k1.regs.f } }
    let k3 := { k2 with regs := { k2.regs with f := k2.regs.e } }
    let k4 := { k3 with regs := { k3.regs with e := add32 k3.regs.d k3.t1 } }
    let k5 := { k4 with regs := { k4.regs with d := k4.regs.c } }
    let k6 := { k5 with regs := { k5.regs with c := k5.regs.b } }
    let k7 := { k6 with regs := { k6.regs with b := k6.regs.a } }
    let k8 := { k7 with regs := { k7.regs with a := add32 k7.t1 k7.t2 } }
    { k8 with j := k8.j + 1 }
  else k

/-- R111: expansion, register load and the 64 rounds, on the transients `k`, whatever they held before. -/
def runMixer (S : HashState) (B : Block) (k : Work) : Work :=
  repeatStep mixRound 64 (loadMixer S (runExpander B k))

/-- R111: `H <- Compress(H, BUF)`, as PUTB and FINAL invoke it. The transients hold no defined value afterwards (R19, R27,
R28), so they become free values of a new draw (log 4). -/
def compressBlock (s : State) : State :=
  { s with
    h := foldRegs s.h (runMixer s.h s.buf s.work).regs
    work := Work.free s.draws
    draws := s.draws + 1 }

end Sys2Proof.Machine
end

