-- ==== Sys2Proof/Machine/Session.lean ====
section
/-! DEFINITION. The session commands INIT, PUTB, FINAL (42_padder.md R90 to R95). -/

namespace Sys2Proof.Machine

/-- R90: what INIT writes. "an empty byte buffer" is `N = 0`; "the bytes above index `N` hold no defined value". The transients are
not touched. -/
def openSession (s : State) : State :=
  forgetResidue { s with h := h0, n := 0, len := 0, phase := .active }

/-- R90 INIT. -/
def execInit (arg : Arg) (s : State) : Result :=
  checked (.init arg) s (respond 0 (openSession s))

/-- R93: the byte would take the message past 2^64 - 1 bits (`LEN + 8` in unbounded arithmetic). -/
def lengthExceeded (s : State) : Bool := decide (2 ^ 64 - 1 < s.len.toNat + 8)

/-- R91: what an accepted PUTB writes. The 64th byte of a block runs one compression in the same command. -/
def absorbByte (b : Byte) (s : State) : State :=
  let s1 := { storeAtN b s with len := s.len + 8 }
  forgetResidue (if s.n = 63 then { compressBlock s1 with n := 0 } else { s1 with n := s.n + 1 })

/-- R91 PUTB: `arg[7:0]` is absorbed; test 4 of R61 comes after the phase test. -/
def execPutb (arg : Arg) (s : State) : Result :=
  checked (.putb arg) s
    (if lengthExceeded s then reject .length s
     else respond 0 (absorbByte (arg.setWidth 8) s))

/-- R94, before the length field is written: the byte 0x80, the zeros, and the first of two compressions when the length
field does not fit (`56 ≤ N ≤ 63`). -/
def padBuffer (s : State) : State :=
  let s1 := storeAtN 0x80 s
  if s.n.toNat ≤ 55 then { s1 with buf := zeroFill (s.n.toNat + 1) 56 s1.buf }
  else
    let s2 := compressBlock { s1 with buf := zeroFill (s.n.toNat + 1) 64 s1.buf }
    { s2 with buf := zeroFill 0 56 s2.buf }

/-- R94: what an accepted FINAL writes. `LEN` is left as it was. -/
def finishSession (s : State) : State :=
  let s1 := padBuffer s
  forgetResidue { compressBlock { s1 with buf := putLength s.len s1.buf } with n := 0, phase := .done }

/-- R94 FINAL. -/
def execFinal (arg : Arg) (s : State) : Result :=
  checked (.final arg) s (respond 0 (finishSession s))

end Sys2Proof.Machine
end

