-- ==== Sys2Proof/Machine/Dispatch.lean ====
section
/-! DEFINITION. One arm per command; each calls the command's own meaning. -/

namespace Sys2Proof.Machine
open Sys2Proof

def exec (i : Instr) (s : State) : Host.Outcome State Fault Refusal :=
  match i with
  | .init arg => Sys2Proof.Machine.execInit arg s
  | .putb arg => Sys2Proof.Machine.execPutb arg s
  | .final arg => Sys2Proof.Machine.execFinal arg s
  | .rds arg => Sys2Proof.Machine.execRds arg s
  | .rdl arg => Sys2Proof.Machine.execRdl arg s
  | .rdh arg => Sys2Proof.Machine.execRdh arg s
  | .rdb arg => Sys2Proof.Machine.execRdb arg s
  | .rdx arg => Sys2Proof.Machine.execRdx arg s
  | .rdk arg => Sys2Proof.Machine.execRdk arg s

end Sys2Proof.Machine
end

