-- ==== Sys2Proof/Machine/Port.lean ====
section
/-! DEFINITION. The command port (30_encoding.md R53, R61): what the engine does with one event of the host. -/

namespace Sys2Proof.Machine

/-- R61: a command word is decoded (test 1; an unassigned `op` is rejected with E_ILLEGAL, R62) and, as one atomic step
(R46), executed. -/
def execWord (w : Word) (s : State) : Result :=
  match decode w with
  | .ok i => exec i s
  | .error _ => reject .illegal s

/-- R53, R151: the two events of the host. -/
def takeEvent (e : HostEvent) (s : State) : Result :=
  match e with
  | .cmd w => execWord w s
  | .rst => .next (resetRequest s)

/-- R14, R47, R155: the host's next event is taken; with no event the engine holds its state (R150, log 10). -/
def serveHost (s : State) : Result :=
  match s.host with
  | [] => .next s
  | e :: es => takeEvent e { s with host := es }

/-- The host presents the word `w` next (R53), before whatever it had left to issue. -/
def presentWord (w : Word) (s : State) : State := { s with host := .cmd w :: s.host }

end Sys2Proof.Machine
end

