-- ==== Sys2Proof/Machine/Step.lean ====
section
/-! DEFINITION. One step of the engine: one event of the host, from the event to its response (20_memory.md R46).

The engine fetches no instructions (10_state.md R18); a command comes to run because the host issues it
(notes/assumptions/1.md). -/

namespace Sys2Proof.Machine

def step (s : State) : Host.Outcome State Fault Refusal := serveHost s

/-- The state in which the host issues the table word `w` of `nbits` bits next. -/
def State.withFetchWord (s : State) (nbits w : Nat) : State := presentWord (BitVec.ofNat 32 (w % 2 ^ nbits)) s

end Sys2Proof.Machine
end

