-- ==== Sys2Proof/Machine/Padder.lean ====
section
/-! DEFINITION. The padding function `Pad` on messages (42_padder.md R86, R88) and the cut into blocks (R96, R125).

R89, 93_implementation_defined.md U1: `Pad` takes messages of at most 2^61 - 1 bytes only, so a message carries that bound
(notes/assumptions/13.md). -/

namespace Sys2Proof.Machine

/-- R7, R89: the largest accepted message, in bytes. -/
def maxMessageBytes : Nat := 2 ^ 61 - 1

/-- R86, R89: a message, "an ordered sequence of bytes", for which `Pad` is defined. -/
abbrev Message := { m : List Byte // m.length ≤ maxMessageBytes }

/-- R86: `BE64(v)`. -/
def be64 (v : BitVec 64) : List Byte := (List.range 8).map (be64Byte v)

/-- R86: `z = (55 - L) mod 64`, the number of zero bytes of step 3. -/
def padZeros (L : Nat) : Nat := (55 + 64 * L - L) % 64

/-- R86, steps 2 to 4: what `Pad` appends to a message of `L` bytes. -/
def padTail (L : Nat) : List Byte :=
  [0x80] ++ List.replicate (padZeros L) 0 ++ be64 (BitVec.ofNat 64 (8 * L))

/-- R86: `Pad(m) = m ++ [0x80] ++ [0x00]·z ++ BE64(8·L)`. -/
def pad (m : Message) : List Byte := m.val ++ padTail m.val.length

/-- R125: block `k` of a byte sequence: its bytes `64k` to `64k + 63`. -/
def blockAt (P : List Byte) (k : Nat) : Block := Vector.ofFn fun i => P.getD (64 * k + i) 0

/-- R125: the consecutive 64-byte blocks of a byte sequence whose length is a multiple of 64. -/
def blocksOf (P : List Byte) : List Block := (List.range (P.length / 64)).map (blockAt P)

end Sys2Proof.Machine
end

