-- ==== Sys2Proof/Machine/Sequences.lean ====
section
/-! DEFINITION. DOC0's interface as functions and as command sequences (46_host_sequences.md R125 to R128), and the
pseudo-commands (30_encoding.md R66). -/

namespace Sys2Proof.Machine

/-- R125: the state after the last block of `Pad(m)`. -/
def hashState (m : Message) : HashState := chain h0 (blocksOf (pad m))

/-- R125 `Hash(m)`: the 32 digest bytes. -/
def hashBytes (m : Message) : List Byte := (List.range 32).map fun i => digestByte (hashState m) (BitVec.ofNat 5 i)

/-- R125 `HashHex(m)`: the 64 characters. -/
def hashHex (m : Message) : List Byte := (List.range 64).map fun i => digestChar (hashState m) (BitVec.ofNat 6 i)

/-- R127: the rendering "on any 32 bytes", R121 with `DB` replaced by the given bytes. -/
def toHex (bytes : List Byte) : List Byte := bytes.flatMap fun b => [hexOfByte b false, hexOfByte b true]

/-- R123 (2): the bytes a text denotes when parsed as hexadecimal, two characters a byte, high nibble first. DESIGN CHOICE (log 19):
a text of odd length, or with a character that is no lower-case digit, denotes none. -/
def parseHex : List Byte → Option (List Byte)
  | [] => some []
  | [_] => none
  | hi :: lo :: rest =>
    match hexDigitValue hi, hexDigitValue lo, parseHex rest with
    | some a, some b, some bytes => some ((a ++ b) :: bytes)
    | _, _, _ => none

/-- R66 `PUTM b0 ... bk`; the operands are those of the PUTB lines. -/
def putm (args : List Arg) : List Instr := args.map .putb

/-- R66 `RDSTATE`. -/
def rdstate : List Instr := (List.range 8).map fun i => .rdh (BitVec.ofNat 24 i)

/-- R66 `RDDIGEST`. -/
def rddigest : List Instr := (List.range 32).map fun i => .rdb (BitVec.ofNat 24 i)

/-- R66 `RDHEX`. -/
def rdhex : List Instr := (List.range 64).map fun i => .rdx (BitVec.ofNat 24 i)

/-- R66 `RDLEN`: high half first. -/
def rdlen : List Instr := [.rdl 1, .rdl 0]

/-- R66 `HASH b0 ... bk`. -/
def hashCommands (args : List Arg) : List Instr := [.init 0] ++ putm args ++ [.final 0] ++ rddigest

/-- R128: the operands of the PUTB commands that deliver a chunk of bytes. -/
def byteArgs (bytes : List Byte) : List Arg := bytes.map fun b => b.setWidth 24

/-- R47, R160: a run of commands, each response collected; `none` where a step gives no response. -/
def runCommands : List Instr → State → Option (List Response × State)
  | [], s => some ([], s)
  | i :: rest, s =>
    match exec i s with
    | .next t =>
      match t.resp, runCommands rest t with
      | some r, some (rs, u) => some (r :: rs, u)
      | _, _ => none
    | .fault _ => none
    | .refused _ => none

/-- R57, R58: the response `(OK, v)`. -/
def okResponse (v : Word) : Response := { status := .ok, rdata := v }

end Sys2Proof.Machine
end

