-- ==== Sys2Proof/Machine/Assembly.lean ====
section
/-! DEFINITION. The notation for command sequences (30_encoding.md R65, R66): one line, as a list of characters, to the commands
it stands for and to their words. What the notation leaves open is notes/assumptions/12.md. -/

namespace Sys2Proof.Machine

/-- R65: the tokens of a line; `;` starts a comment that runs to the end of the line. `cur` is the token being read,
reversed. -/
def lineTokens : List Char → List Char → List (List Char)
  | [], cur => if cur.isEmpty then [] else [cur.reverse]
  | c :: cs, cur =>
    let done := if cur.isEmpty then [] else [cur.reverse]
    if c = ';' then done
    else if c = ' ' ∨ c = '\t' then done ++ lineTokens cs []
    else lineTokens cs (c :: cur)

/-- The value of a digit in the bases R65 names, ten and sixteen. -/
def digitValue (base : Nat) (c : Char) : Option Nat :=
  let n := c.toNat
  if 0x30 ≤ n ∧ n ≤ 0x39 then some (n - 0x30)
  else if base = 16 ∧ 0x41 ≤ n ∧ n ≤ 0x46 then some (n - 0x41 + 10)
  else if base = 16 ∧ 0x61 ≤ n ∧ n ≤ 0x66 then some (n - 0x61 + 10)
  else none

/-- The number a list of digits denotes, with `acc` already read. -/
def digitsValue (base : Nat) : List Char → Nat → Option Nat
  | [], acc => some acc
  | c :: cs, acc => (digitValue base c).bind fun d => digitsValue base cs (acc * base + d)

/-- R65: `arg` in decimal or in hexadecimal with `0x`; it must fit the 24-bit field. -/
def parseArg (t : List Char) : Option Arg :=
  let v :=
    match t with
    | [] => none
    | ['0', 'x'] => none
    | '0' :: 'x' :: ds => digitsValue 16 ds 0
    | ds => digitsValue 10 ds 0
  match v with
  | some n => if n < 2 ^ 24 then some (BitVec.ofNat 24 n) else none
  | none => none

/-- All operands of a line, or none if one is no number. -/
def parseArgs : List (List Char) → Option (List Arg)
  | [] => some []
  | t :: ts => (parseArg t).bind fun a => (parseArgs ts).map (a :: ·)

/-- R65: the nine mnemonics. -/
def mnemonicOf (t : List Char) : Option (Arg → Instr) :=
  if t = ['I', 'N', 'I', 'T'] then some .init
  else if t = ['P', 'U', 'T', 'B'] then some .putb
  else if t = ['F', 'I', 'N', 'A', 'L'] then some .final
  else if t = ['R', 'D', 'S'] then some .rds
  else if t = ['R', 'D', 'L'] then some .rdl
  else if t = ['R', 'D', 'H'] then some .rdh
  else if t = ['R', 'D', 'B'] then some .rdb
  else if t = ['R', 'D', 'X'] then some .rdx
  else if t = ['R', 'D', 'K'] then some .rdk
  else none

/-- R66: the pseudo-commands without operands. -/
def plainPseudo (t : List Char) : Option (List Instr) :=
  if t = ['R', 'D', 'S', 'T', 'A', 'T', 'E'] then some rdstate
  else if t = ['R', 'D', 'D', 'I', 'G', 'E', 'S', 'T'] then some rddigest
  else if t = ['R', 'D', 'H', 'E', 'X'] then some rdhex
  else if t = ['R', 'D', 'L', 'E', 'N'] then some rdlen
  else none

/-- R65, R66: the commands of a line whose first token is `t` and whose operands are `args`; a missing `arg` is 0. -/
def lineCommands (t : List Char) (args : List Arg) : Option (List Instr) :=
  if t = ['P', 'U', 'T', 'M'] then some (putm args)
  else if t = ['H', 'A', 'S', 'H'] then some (hashCommands args)
  else
    match mnemonicOf t, args with
    | some f, [] => some [f 0]
    | some f, [a] => some [f a]
    | some _, _ => none
    | none, [] => plainPseudo t
    | none, _ => none

/-- R65, R66: a whole line. DESIGN CHOICE (log 12), since the spec is silent: a line without a token, blank or holding only a
comment, stands for no command. -/
def parseLine (line : List Char) : Option (List Instr) :=
  match lineTokens line [] with
  | [] => some []
  | t :: ts => (parseArgs ts).bind (lineCommands t)

/-- R65: "The encoding of a line is `(op << 24) | arg`"; a pseudo-command "has no encoding of its own" (R66), its words are
those of its commands. -/
def assembleLine (line : List Char) : Option (List Word) := (parseLine line).map fun is => is.map encode

end Sys2Proof.Machine
end

