-- ==== Sys2Proof/Safety.lean ====
section
/-! DEFINITION. The terms claims are written in: the invariants of 10_state.md R31, what a session stands for (42_padder.md R96),
and what the host can see of a state (10_state.md R30). -/

namespace Sys2Proof

open Sys2Proof.Machine

/-- R31, items 3 to 6, and `N = 0` in IDLE (R32: no command permitted in IDLE but INIT writes `N`). Items 1, 2 and 7 are facts
of the types. -/
abbrev Safety.CountersAgree (s : State) : Prop :=
  (s.phase = .idle → s.n = 0) ∧
  (s.phase ≠ .idle → s.len.toNat % 8 = 0 ∧ s.len.toNat ≤ 2 ^ 64 - 8) ∧
  (s.phase = .active → s.n.toNat = s.len.toNat / 8 % 64) ∧
  (s.phase = .done → s.n = 0)

/-- R96: the open session has absorbed exactly the bytes of `m`: whole blocks are folded into `H` in order, the rest stands in
`BUF[0..N)`, and `LEN` counts the bits. -/
abbrev Safety.Absorbed (m : List Byte) (s : State) : Prop :=
  m.length ≤ maxMessageBytes ∧
  s.len.toNat = 8 * m.length ∧
  s.n.toNat = m.length % 64 ∧
  s.h = chain h0 (blocksOf m) ∧
  ∀ i : Fin 64, i.val < m.length % 64 → s.buf[i] = m.getD (64 * (m.length / 64) + i.val) 0

/-- R96, R115: the finalized session holds the digest of `m`. -/
abbrev Safety.Finalized (m : Message) (s : State) : Prop :=
  s.h = hashState m ∧ s.n = 0 ∧ s.len.toNat = 8 * m.val.length

/-- R21, R96: what a state stands for in each phase. -/
def Safety.SessionStandsForMessage (s : State) : Prop :=
  match s.phase with
  | .idle => s.n = 0
  | .active => ∃ m : List Byte, Safety.Absorbed m s
  | .done => ∃ m : Message, Safety.Finalized m s

/-- R30, R26: two states the host cannot tell apart. They may differ in the transients, in the draws, in `BUF[N..64)`, in all
of `BUF` unless a session is open, and in `H` and `LEN` while no session exists. -/
abbrev Safety.SameToHost (s t : State) : Prop :=
  s.phase = t.phase ∧ s.n = t.n ∧ s.resp = t.resp ∧ s.host = t.host ∧
  (s.phase ≠ .idle → s.h = t.h ∧ s.len = t.len) ∧
  (s.phase = .active → ∀ i : Fin 64, i.val < s.n.toNat → s.buf[i] = t.buf[i])

/-- R42, R124: the read commands. -/
def Safety.isRead : Instr → Bool
  | .init _ => false
  | .putb _ => false
  | .final _ => false
  | .rds _ => true
  | .rdl _ => true
  | .rdh _ => true
  | .rdb _ => true
  | .rdx _ => true
  | .rdk _ => true

/-- R57: the command was executed. -/
abbrev Safety.Accepted (t : State) : Prop := t.resp.map (·.status) = some .ok

end Sys2Proof
end

