-- ==== Sys2Proof/Certificates/Slice0/Obligations.lean ====
section
/-! DEFINITION. The statements for the provers, from the numbered rules of spec/. Each docstring names the rule or the section it
formalises. A next state is written in the terms of the spec's pseudocode; a statement says nothing of a free value. -/

open Sys2Proof Sys2Proof.Machine

/-! ## The command port: decoding, checks, steps (30_encoding.md, 60_exceptions.md, 70_reset_and_hazards.md) -/

/-- 30 §7 (R65, its example words) and §3 (R56): command words written out from the encoding decode to their commands, and
reserved words to none. -/
def Obligations.CommandWordsDecode : Prop :=
  decode 0x01000000 = .ok (.init 0) ∧ decode 0x02000061 = .ok (.putb 0x61) ∧ decode 0x02000100 = .ok (.putb 256) ∧
  decode 0x03000000 = .ok (.final 0) ∧ decode 0x10000000 = .ok (.rds 0) ∧ decode 0x11000001 = .ok (.rdl 1) ∧
  decode 0x12000007 = .ok (.rdh 7) ∧ decode 0x1300001F = .ok (.rdb 31) ∧ decode 0x1400003F = .ok (.rdx 63) ∧
  decode 0x1500003F = .ok (.rdk 63) ∧ decode 0x00000000 = .error (.unassignedOp 0) ∧
  decode 0xFFFFFFFF = .error (.unassignedOp 0xFF)

/-- 30 §2, §3, §7: the encoder and the decoder agree in both directions, for every command and every operand. -/
def Obligations.EncodeDecodeAgree : Prop :=
  (∀ i : Instr, decode (encode i) = .ok i) ∧ (∀ (w : Word) (i : Instr), decode w = .ok i → encode i = w)

/-- 30 §3 (R56, columns `match`, `mask`): the masked word selects the command, and the operand is `cmd[23:0]` (R54). -/
def Obligations.MatchAndMaskSelectCommand : Prop :=
  ∀ (w : Word) (i : Instr), decode w = .ok i ↔
    i.arg.toNat = w.toNat % 2 ^ 24 ∧
    match i with
    | .init _ => w &&& 0xFF000000 = 0x01000000
    | .putb _ => w &&& 0xFF000000 = 0x02000000
    | .final _ => w &&& 0xFF000000 = 0x03000000
    | .rds _ => w &&& 0xFF000000 = 0x10000000
    | .rdl _ => w &&& 0xFF000000 = 0x11000000
    | .rdh _ => w &&& 0xFF000000 = 0x12000000
    | .rdb _ => w &&& 0xFF000000 = 0x13000000
    | .rdx _ => w &&& 0xFF000000 = 0x14000000
    | .rdk _ => w &&& 0xFF000000 = 0x15000000

/-- R62: each of the 247 reserved values of `op` is rejected with E_ILLEGAL in every state and changes no state; the all-zero
and the all-ones word are among them. -/
def Obligations.ReservedOpIsRejected : Prop :=
  ((List.range 256).filter fun op => !([1, 2, 3, 0x10, 0x11, 0x12, 0x13, 0x14, 0x15].contains op)).length = 247 ∧
  (∀ (w : Word) (s : State), w.toNat / 2 ^ 24 ∉ [1, 2, 3, 0x10, 0x11, 0x12, 0x13, 0x14, 0x15] →
    execWord w s = .next { s with resp := some { status := .illegal, rdata := 0 } }) ∧
  (∀ s : State, execWord 0x00000000 s = .next { s with resp := some { status := .illegal, rdata := 0 } } ∧
    execWord 0xFFFFFFFF s = .next { s with resp := some { status := .illegal, rdata := 0 } })

/-- R59, R60, R140: for every word and every state the status of the response, by the four tests in their fixed order: op,
operand bound, phase table, length. A rejection writes nothing but the response. -/
def Obligations.ChecksInFixedOrder : Prop :=
  ∀ (w : Word) (s : State), ∃ t r, execWord w s = .next t ∧ t.resp = some r ∧
    (r.status ≠ .ok → t = { s with resp := some { status := r.status, rdata := 0 } }) ∧
    r.status =
      (let op := w.toNat / 2 ^ 24
       let arg := w.toNat % 2 ^ 24
       let bounds : List (Nat × Nat) :=
         [(0x01, 0), (0x02, 255), (0x03, 0), (0x10, 0), (0x11, 1), (0x12, 7), (0x13, 31), (0x14, 63), (0x15, 63)]
       match bounds.lookup op with
       | none => Status.illegal
       | some bound =>
         if bound < arg then (if op = 0x02 then .value else .illegal)
         else if s.phase = .idle ∧ op ∈ [0x02, 0x03, 0x11, 0x12, 0x13, 0x14] then .seq
         else if s.phase = .active ∧ op ∈ [0x13, 0x14] then .seq
         else if s.phase = .done ∧ op ∈ [0x02, 0x03] then .seq
         else if op = 0x02 ∧ 2 ^ 64 - 1 < s.len.toNat + 8 then .length
         else .ok)

/-- R141: whatever the word and the state, a response that is not OK carries `rdata = 0` and the state after it equals the state
before it, but for the response itself. -/
def Obligations.RejectionWritesNothing : Prop :=
  ∀ (w : Word) (s t : State) (r : Response), execWord w s = .next t → t.resp = some r → r.status ≠ .ok →
    r.rdata = 0 ∧ t = { s with resp := some r }

/-- R21 and R57 (columns of codes): the codes of the phases and of the response statuses; 3 is no phase, 5 to 15 no status. -/
def Obligations.PortCodes : Prop :=
  (Phase.code .idle = 0 ∧ Phase.code .active = 1 ∧ Phase.code .done = 2 ∧ ∀ p : Phase, p.code ≠ 3) ∧
  (Status.code .ok = 0 ∧ Status.code .illegal = 1 ∧ Status.code .seq = 2 ∧ Status.code .value = 3 ∧
    Status.code .length = 4 ∧ ∀ e : Status, e.code.toNat ≤ 4)

/-- 30 §4 (R58): INIT, PUTB and FINAL answer `rdata = 0` when accepted. -/
def Obligations.WriteCommandsAnswerZero : Prop :=
  ∀ (i : Instr) (s t : State), Safety.isRead i = false → exec i s = .next t → t.resp.map (·.rdata) = some 0

/-- 20 §7, 30 §5: a step runs the decoded command on the state whose first event has been taken; nothing else is added. -/
def Obligations.StepRunsDecodedCommand : Prop :=
  (∀ (s : State) (w : Word) (es : List HostEvent) (i : Instr), s.host = .cmd w :: es → decode w = .ok i →
    step s = exec i { s with host := es }) ∧
  (∀ (s : State) (w : Word) (es : List HostEvent) (e : DecodeError), s.host = .cmd w :: es → decode w = .error e →
    step s = .next { s with host := es, resp := some { status := .illegal, rdata := 0 } })

/-- 70 §1 (the parts of its reset rule that name a value): the reset request leaves IDLE and `N = 0` and no response; the host's
later events stand. -/
def Obligations.ResetRequestEffect : Prop :=
  ∀ (s : State) (es : List HostEvent), s.host = .rst :: es →
    ∃ t, step s = .next t ∧ t.phase = .idle ∧ t.n = 0 ∧ t.resp = none ∧ t.host = es

/-- 10 §10 (the rows of its reset table that name a value). That no host event is waiting is the model's choice, log 1. -/
def Obligations.ResetStateValues : Prop :=
  State.reset.phase = .idle ∧ State.reset.n = 0 ∧ State.reset.resp = none ∧ State.reset.host = []

/-- The model's choice, log 10, on 60 §12 ("Between commands the engine holds its state indefinitely") and 70 §1 ("the engine
executes nothing until the host sends a command"). -/
def Obligations.IdleStepHoldsState : Prop := ∀ s : State, s.host = [] → step s = .next s

/-- 46 §4 ("every word has a defined response"), 70 §4 and §5: a step that takes an event of the host answers a next state, and a
step that takes a command leaves a response. The model's choices: with no host event left there is a next state too (log 10;
in 70 §4 the run ends there), and the events stand in `host`, of which a step takes the first alone (log 1). -/
def Obligations.EveryStepAnswers : Prop :=
  (∀ s : State, ∃ t, step s = .next t) ∧
  (∀ (s t : State) (w : Word) (es : List HostEvent), s.host = .cmd w :: es → step s = .next t →
    ∃ r, t.resp = some r ∧ t.host = es)

/-! ## The session commands (42_padder.md) -/

/-- R90: INIT, in every phase; `H` becomes the table `H0`. The transients and the host's later events stand; an operand other
than 0 is rejected. -/
def Obligations.InitOpensSession : Prop :=
  (∀ s : State, ∃ t, exec (.init 0) s = .next t ∧
    t.h = h0 ∧ t.n = 0 ∧ t.len = 0 ∧ t.phase = .active ∧ t.work = s.work ∧ t.host = s.host ∧ t.resp = some (okResponse 0)) ∧
  (∀ (s : State) (arg : Arg), arg ≠ 0 →
    exec (.init arg) s = .next { s with resp := some { status := .illegal, rdata := 0 } })

/-- R91: PUTB, the three rejections in their order, the byte that is buffered, and the 64th byte, which runs one compression in
the same command. -/
def Obligations.PutbAbsorbsByte : Prop :=
  ∀ (s : State) (arg : Arg),
    (255 < arg.toNat → exec (.putb arg) s = .next { s with resp := some { status := .value, rdata := 0 } }) ∧
    (arg.toNat ≤ 255 → s.phase ≠ .active →
      exec (.putb arg) s = .next { s with resp := some { status := .seq, rdata := 0 } }) ∧
    (arg.toNat ≤ 255 → s.phase = .active → 2 ^ 64 - 1 < s.len.toNat + 8 →
      exec (.putb arg) s = .next { s with resp := some { status := .length, rdata := 0 } }) ∧
    (arg.toNat ≤ 255 → s.phase = .active → s.len.toNat + 8 ≤ 2 ^ 64 - 1 →
      ∃ t, exec (.putb arg) s = .next t ∧ t.resp = some (okResponse 0) ∧ t.len = s.len + 8 ∧ t.phase = .active ∧
        t.host = s.host ∧
        (s.n.toNat ≠ 63 →
          t.n = s.n + 1 ∧ t.buf[s.n.toNat]'s.n.isLt = BitVec.ofNat 8 arg.toNat ∧
          (∀ i : Fin 64, i.val < s.n.toNat → t.buf[i] = s.buf[i]) ∧ t.h = s.h ∧ t.work = s.work) ∧
        (s.n.toNat = 63 → t.n = 0 ∧ t.h = compress s.h (s.buf.set 63 (BitVec.ofNat 8 arg.toNat))))

/-- R92: a PUTB with `arg[23:8] ≠ 0` is rejected with E_VALUE and `arg[7:0]` is not absorbed. -/
def Obligations.NonByteIsNotAbsorbed : Prop :=
  ∀ (s : State) (arg : Arg), arg.extractLsb' 8 16 ≠ 0 →
    exec (.putb arg) s = .next { s with resp := some { status := .value, rdata := 0 } }

/-- 42 §3 (its length bound): in an open session with `LEN` a multiple of 8 a byte is rejected with E_LENGTH exactly at
`LEN = 2^64 - 8`, and from there FINAL is still accepted and keeps `LEN`. -/
def Obligations.LengthBoundIsReachedOnce : Prop :=
  ∀ (s : State) (arg : Arg), s.phase = .active → arg.toNat ≤ 255 → s.len.toNat % 8 = 0 →
    (exec (.putb arg) s = .next { s with resp := some { status := .length, rdata := 0 } } ↔
      s.len = 0xFFFFFFFFFFFFFFF8) ∧
    ∃ t, exec (.final 0) s = .next t ∧ t.resp = some (okResponse 0) ∧ t.phase = .done ∧ t.len = s.len

/-- R94: FINAL. Byte `i` of the padded buffer is the buffered byte below `N`, 0x80 at `N`, zero above; the length field is bytes 56
to 63 of the last block. One compression when `N ≤ 55`, two otherwise. `LEN` stands. -/
def Obligations.FinalPadsAndCompresses : Prop :=
  ∀ s : State,
    (∀ arg : Arg, arg ≠ 0 → exec (.final arg) s = .next { s with resp := some { status := .illegal, rdata := 0 } }) ∧
    (s.phase ≠ .active → exec (.final 0) s = .next { s with resp := some { status := .seq, rdata := 0 } }) ∧
    (s.phase = .active →
      let padded : Fin 64 → Byte := fun i => if i.val < s.n.toNat then s.buf[i] else if i.val = s.n.toNat then 0x80 else 0
      let lengthByte : Fin 64 → Byte := fun i => BitVec.ofNat 8 (s.len.toNat / 2 ^ (8 * (63 - i.val)))
      ∃ t, exec (.final 0) s = .next t ∧
        t.h =
          (if s.n.toNat ≤ 55 then
            compress s.h (Vector.ofFn fun i => if i.val < 56 then padded i else lengthByte i)
           else
            compress (compress s.h (Vector.ofFn padded)) (Vector.ofFn fun i => if i.val < 56 then 0 else lengthByte i)) ∧
        t.n = 0 ∧ t.phase = .done ∧ t.len = s.len ∧ t.resp = some (okResponse 0) ∧ t.host = s.host)

/-- 42 §2 to §4, 10 §1 (columns "Written by"), 20 §4: what the session commands leave unchanged whenever they answer. INIT: the
transients. PUTB: `PHASE`, and, unless the 64th byte arrives, the buffered bytes, `H` and the transients. FINAL: `LEN`. All three:
the host's later events. -/
def Obligations.SessionCommandFrame : Prop :=
  (∀ (s t : State) (arg : Arg), exec (.init arg) s = .next t → t.work = s.work ∧ t.host = s.host) ∧
  (∀ (s t : State) (arg : Arg), exec (.putb arg) s = .next t →
    t.phase = s.phase ∧ t.host = s.host ∧
    (s.n.toNat ≠ 63 →
      t.h = s.h ∧ t.work = s.work ∧ ∀ i : Fin 64, i.val < s.n.toNat → t.buf[i] = s.buf[i])) ∧
  (∀ (s t : State) (arg : Arg), exec (.final arg) s = .next t → t.len = s.len ∧ t.host = s.host)

/-- R33: the transitions of PHASE, for every event of the host. -/
def Obligations.PhaseLifecycle : Prop :=
  (∀ s t : State, takeEvent .rst s = .next t → t.phase = .idle) ∧
  (∀ (s t : State) (arg : Arg), exec (.init arg) s = .next t → Safety.Accepted t →
    t.phase = .active ∧ t.h = h0 ∧ t.n = 0 ∧ t.len = 0) ∧
  (∀ (s t : State) (arg : Arg), exec (.putb arg) s = .next t → Safety.Accepted t →
    s.phase = .active ∧ t.phase = .active) ∧
  (∀ (s t : State) (arg : Arg), exec (.final arg) s = .next t → Safety.Accepted t →
    s.phase = .active ∧ t.phase = .done) ∧
  (∀ (i : Instr) (s t : State), Safety.isRead i = true → exec i s = .next t → t.phase = s.phase) ∧
  (∀ (w : Word) (s t : State), execWord w s = .next t → ¬ Safety.Accepted t → t.phase = s.phase)

/-- R153: while no session exists PUTB, FINAL, RDL, RDH, RDB and RDX answer E_SEQ on every legal operand; RDS and RDK work at once,
and no command but INIT ends this. -/
def Obligations.IdleAnswersOnlyStatusAndRom : Prop :=
  ∀ s : State, s.phase = .idle →
    (∀ i : Instr, i.wf = true →
      (match i with
        | .init _ => ∃ t, exec i s = .next t ∧ t.phase = .active ∧ Safety.Accepted t
        | .rds _ => exec i s = .next { s with resp := some (okResponse (BitVec.ofNat 32 (256 * s.n.toNat))) }
        | .rdk a => exec i s = .next { s with resp := some (okResponse (kRom.toList.getD a.toNat 0)) }
        | .putb _ | .final _ | .rdl _ | .rdh _ | .rdb _ | .rdx _ =>
          exec i s = .next { s with resp := some { status := .seq, rdata := 0 } })) ∧
    (∀ (w : Word) (t : State), w ≠ 0x01000000 → execWord w s = .next t → t.phase = .idle)

/-- 90 C4, 10 §2, 44 §4, with the blocks of 42 §3 and §4: in any step `H` stands, or a reset request was taken, or INIT loaded
`H0`, or the PUTB of the 64th byte `b` folded the buffer with `b` in place, or FINAL folded its one or two padded blocks. -/
def Obligations.HashStateWrittenOnlyByInitAndFold : Prop :=
  ∀ s t : State, step s = .next t →
    let padded : Fin 64 → Byte := fun i => if i.val < s.n.toNat then s.buf[i] else if i.val = s.n.toNat then 0x80 else 0
    let lengthByte : Fin 64 → Byte := fun i => BitVec.ofNat 8 (s.len.toNat / 2 ^ (8 * (63 - i.val)))
    t.h = s.h ∨
    (∃ es, s.host = .rst :: es) ∨
    (t.h = h0 ∧ ∃ es, s.host = .cmd 0x01000000 :: es) ∨
    (s.phase = .active ∧ s.n.toNat = 63 ∧ s.len.toNat + 8 ≤ 2 ^ 64 - 1 ∧
      ∃ (b : Byte) (es : List HostEvent), s.host = .cmd (0x02000000 + b.setWidth 32) :: es ∧
        t.h = compress s.h (s.buf.set 63 b)) ∨
    (s.phase = .active ∧ (∃ es, s.host = .cmd 0x03000000 :: es) ∧
      t.h =
        (if s.n.toNat ≤ 55 then
          compress s.h (Vector.ofFn fun i => if i.val < 56 then padded i else lengthByte i)
         else
          compress (compress s.h (Vector.ofFn padded)) (Vector.ofFn fun i => if i.val < 56 then 0 else lengthByte i)))

/-! ## The read commands (45_digest.md, 41_constants.md §5) -/

/-- R117 and R24: RDS, in every phase: `rdata[1:0] = PHASE`, `rdata[13:8] = N`, all other bits 0. -/
def Obligations.RdsReturnsStatus : Prop :=
  (∀ s : State, exec (.rds 0) s =
    .next { s with resp := some (okResponse (BitVec.ofNat 32 (256 * s.n.toNat + s.phase.code.toNat))) }) ∧
  (∀ (s : State) (arg : Arg), arg ≠ 0 →
    exec (.rds arg) s = .next { s with resp := some { status := .illegal, rdata := 0 } })

/-- R118: RDL. -/
def Obligations.RdlReturnsHalfOfLength : Prop :=
  ∀ (s : State) (arg : Arg),
    (1 < arg.toNat → exec (.rdl arg) s = .next { s with resp := some { status := .illegal, rdata := 0 } }) ∧
    (arg.toNat ≤ 1 → s.phase = .idle →
      exec (.rdl arg) s = .next { s with resp := some { status := .seq, rdata := 0 } }) ∧
    (arg.toNat ≤ 1 → s.phase ≠ .idle →
      exec (.rdl arg) s =
        .next { s with resp := some (okResponse (BitVec.ofNat 32
          (if arg.toNat = 0 then s.len.toNat % 2 ^ 32 else s.len.toNat / 2 ^ 32))) })

/-- R119: RDH. -/
def Obligations.RdhReturnsStateWord : Prop :=
  ∀ (s : State) (arg : Arg),
    (7 < arg.toNat → exec (.rdh arg) s = .next { s with resp := some { status := .illegal, rdata := 0 } }) ∧
    (arg.toNat ≤ 7 → s.phase = .idle →
      exec (.rdh arg) s = .next { s with resp := some { status := .seq, rdata := 0 } }) ∧
    (∀ hi : arg.toNat < 8, s.phase ≠ .idle →
      exec (.rdh arg) s = .next { s with resp := some (okResponse s.h[arg.toNat]) })

/-- R120: RDB; the byte `w[31 - 8k : 24 - 8k]` of the word `w = H[arg div 4]`, `k = arg mod 4`, zero-extended. -/
def Obligations.RdbReturnsDigestByte : Prop :=
  ∀ (s : State) (arg : Arg),
    (31 < arg.toNat → exec (.rdb arg) s = .next { s with resp := some { status := .illegal, rdata := 0 } }) ∧
    (arg.toNat ≤ 31 → s.phase ≠ .done →
      exec (.rdb arg) s = .next { s with resp := some { status := .seq, rdata := 0 } }) ∧
    (∀ hi : arg.toNat < 32, s.phase = .done →
      exec (.rdb arg) s =
        .next { s with resp := some (okResponse (BitVec.ofNat 32
          ((s.h[arg.toNat / 4]'(by omega)).toNat / 2 ^ (24 - 8 * (arg.toNat % 4)) % 256))) })

/-- R121, R122: RDX; the nibble of digest byte `arg div 2` (the high one when `arg` is even), as the code of a lower-case
hexadecimal digit. -/
def Obligations.RdxReturnsHexCharacter : Prop :=
  ∀ (s : State) (arg : Arg),
    (63 < arg.toNat → exec (.rdx arg) s = .next { s with resp := some { status := .illegal, rdata := 0 } }) ∧
    (arg.toNat ≤ 63 → s.phase ≠ .done →
      exec (.rdx arg) s = .next { s with resp := some { status := .seq, rdata := 0 } }) ∧
    (∀ hi : arg.toNat < 64, s.phase = .done →
      let byte := (s.h[arg.toNat / 2 / 4]'(by omega)).toNat / 2 ^ (24 - 8 * (arg.toNat / 2 % 4)) % 256
      let nibble := if arg.toNat % 2 = 0 then byte / 16 else byte % 16
      exec (.rdx arg) s =
        .next { s with resp := some (okResponse (BitVec.ofNat 32
          (if nibble ≤ 9 then 0x30 + nibble else 0x61 + (nibble - 10)))) })

/-- R85: RDK, in every phase. -/
def Obligations.RdkReturnsRoundConstant : Prop :=
  ∀ (s : State) (arg : Arg),
    (63 < arg.toNat → exec (.rdk arg) s = .next { s with resp := some { status := .illegal, rdata := 0 } }) ∧
    (∀ hi : arg.toNat < 64, exec (.rdk arg) s = .next { s with resp := some (okResponse kRom[arg.toNat]) })

/-- 45 §7: the six read commands write no state, in any phase, accepted or rejected: only the response is new. -/
def Obligations.ReadsWriteNothing : Prop :=
  ∀ (i : Instr) (s t : State), Safety.isRead i = true → exec i s = .next t → t = { s with resp := t.resp }

/-- R130: the digest has 32 bytes and 64 characters, and in DONE exactly the indices 0 to 31 of RDB and 0 to 63 of RDX are
accepted. -/
def Obligations.DigestHasFixedLength : Prop :=
  (∀ m : Message, (hashBytes m).length = 32 ∧ (hashHex m).length = 64) ∧
  (∀ (s : State) (arg : Arg), s.phase = .done →
    ((∃ t, exec (.rdb arg) s = .next t ∧ Safety.Accepted t) ↔ arg.toNat ≤ 31) ∧
    ((∃ t, exec (.rdx arg) s = .next t ∧ Safety.Accepted t) ↔ arg.toNat ≤ 63))

/-- 45 §6 (what a model should prove of the rendering): the 64 characters render the 32 bytes two by two, high nibble first;
parsing them as hexadecimal gives back the 32 bytes, as it does for the rendering of any bytes; so the rendering is injective. -/
def Obligations.HexRenderingIsInjective : Prop :=
  (∀ m : Message, hashHex m = toHex (hashBytes m)) ∧
  (∀ m : Message, parseHex (hashHex m) = some (hashBytes m)) ∧
  (∀ bs : List Byte, parseHex (toHex bs) = some bs) ∧
  (∀ bs cs : List Byte, toHex bs = toHex cs → bs = cs) ∧
  (∀ bs : List Byte, (toHex bs).length = 2 * bs.length ∧
    ∀ c ∈ toHex bs, (0x30 ≤ c.toNat ∧ c.toNat ≤ 0x39) ∨ (0x61 ≤ c.toNat ∧ c.toNat ≤ 0x66))

/-! ## The datapath (40_word_arithmetic.md, 43_schedule.md, 44_compression.md, 20_memory.md §2) -/

/-- R67: ADD32, with its corner cases and its example. -/
def Obligations.AdderWraps : Prop :=
  (∀ x y : Word, (add32 x y).toNat = (x.toNat + y.toNat) % 2 ^ 32) ∧
  add32 0xFFFFFFFF 0x00000001 = 0 ∧ add32 0x80000000 0x80000000 = 0 ∧ add32 0xFFFFFFFF 0xFFFFFFFF = 0xFFFFFFFE ∧
  (∀ x : Word, add32 x 0 = x) ∧ add32 0x6A09E667 0xBB67AE85 = 0x257194EC

/-- 40 §1: the n-operand sum is the unbounded sum modulo 2^32, so neither the order of the operands nor the place of the
truncation matters. -/
def Obligations.ManyOperandSumIsExactSumModulo : Prop :=
  (∀ xs : List Word, (add32s xs).toNat = (xs.map BitVec.toNat).sum % 2 ^ 32) ∧
  (∀ xs ys : List Word, xs.Perm ys → add32s xs = add32s ys) ∧
  (∀ xs ys : List Word, add32s (xs ++ ys) = add32 (add32s xs) (add32s ys))

/-- R71: ROTR32; bit `i` of the result is bit `(i + n) mod 32` of the operand, and the shift formula for `1 ≤ n`. -/
def Obligations.RotateMovesBits : Prop :=
  (∀ (x : Word) (n : BitVec 5) (i : Nat), i < 32 → (rotr32 x n).getLsbD i = x.getLsbD ((i + n.toNat) % 32)) ∧
  (∀ (x : Word) (n : BitVec 5), 1 ≤ n.toNat →
    (rotr32 x n).toNat = ((x.toNat >>> n.toNat) ||| (x.toNat <<< (32 - n.toNat))) % 2 ^ 32) ∧
  (∀ x : Word, rotr32 x 0 = x) ∧ rotr32 1 1 = 0x80000000 ∧ rotr32 0x80000000 31 = 1 ∧
  (∀ n : BitVec 5, rotr32 0 n = 0 ∧ rotr32 0xFFFFFFFF n = 0xFFFFFFFF) ∧ rotr32 0x12345678 7 = 0xF02468AC

/-- R72 and R73: SHR32 is floor division by `2^n`, and the barrel shifter's output is ROTR32 or SHR32 by its mode. -/
def Obligations.ShiftDividesAndShifterHasTwoModes : Prop :=
  (∀ (x : Word) (n : BitVec 5), (shr32 x n).toNat = x.toNat / 2 ^ n.toNat) ∧
  (∀ x : Word, shr32 x 0 = x) ∧ shr32 0x80000000 31 = 1 ∧ shr32 0xFFFFFFFF 3 = 0x1FFFFFFF ∧
  shr32 0x80000000 1 = 0x40000000 ∧ shr32 0x12345678 3 = 0x02468ACF ∧
  (∀ (x : Word) (n : BitVec 5), barrelShifter .rotate x n = rotr32 x n ∧ barrelShifter .shift x n = shr32 x n)

/-- R74, R75, R76: the bitwise units, bit by bit, with their examples. -/
def Obligations.BitwiseUnits : Prop :=
  (∀ (x y : Word) (i : Nat), i < 32 →
    (and32 x y).getLsbD i = (x.getLsbD i && y.getLsbD i) ∧ (xor32 x y).getLsbD i = (x.getLsbD i != y.getLsbD i) ∧
    (not32 x).getLsbD i = !x.getLsbD i) ∧
  (∀ x : Word, (not32 x).toNat = 0xFFFFFFFF - x.toNat) ∧
  and32 0x12345678 0x0F0F0F0F = 0x02040608 ∧ xor32 0x12345678 0xFFFFFFFF = 0xEDCBA987 ∧ not32 0x12345678 = 0xEDCBA987

/-- R97, R98, R103, R104: the four sigma functions, bit by bit, with corner cases of each. -/
def Obligations.SigmaFunctions : Prop :=
  (∀ (x : Word) (i : Nat), i < 32 →
    (smallSigma0 x).getLsbD i =
      ((x.getLsbD ((i + 7) % 32) != x.getLsbD ((i + 18) % 32)) != (decide (i + 3 < 32) && x.getLsbD (i + 3))) ∧
    (smallSigma1 x).getLsbD i =
      ((x.getLsbD ((i + 17) % 32) != x.getLsbD ((i + 19) % 32)) != (decide (i + 10 < 32) && x.getLsbD (i + 10))) ∧
    (bigSigma0 x).getLsbD i =
      ((x.getLsbD ((i + 2) % 32) != x.getLsbD ((i + 13) % 32)) != x.getLsbD ((i + 22) % 32)) ∧
    (bigSigma1 x).getLsbD i =
      ((x.getLsbD ((i + 6) % 32) != x.getLsbD ((i + 11) % 32)) != x.getLsbD ((i + 25) % 32))) ∧
  smallSigma0 0xFFFFFFFF = 0x1FFFFFFF ∧ smallSigma0 0x12345678 = 0xE7FCE6EE ∧
  smallSigma1 0xFFFFFFFF = 0x003FFFFF ∧ smallSigma1 0x12345678 = 0xA1F78649 ∧
  bigSigma0 0x80000000 = 0x20040200 ∧ bigSigma0 0x6A09E667 = 0xCE20B47E ∧
  bigSigma1 0x80000000 = 0x02100040 ∧ bigSigma1 0x510E527F = 0x3587272B

/-- R105, R106: choice and majority by their truth tables. -/
def Obligations.ChoiceAndMajority : Prop :=
  (∀ (x y z : Word) (i : Nat), i < 32 →
    (ch x y z).getLsbD i = (if x.getLsbD i then y.getLsbD i else z.getLsbD i) ∧
    (maj x y z).getLsbD i = decide (2 ≤ (x.getLsbD i).toNat + (y.getLsbD i).toNat + (z.getLsbD i).toNat)) ∧
  ch 0xFFFF0000 0x12345678 0x9ABCDEF0 = 0x1234DEF0 ∧ ch 0x510E527F 0x9B05688C 0x1F83D9AB = 0x1F85C98C ∧
  maj 0xF0F0F0F0 0xCCCCCCCC 0xAAAAAAAA = 0xE8E8E8E8 ∧ maj 0x6A09E667 0xBB67AE85 0x3C6EF372 = 0x3A6FE667

/-- R78, R80: every constant is the first 32 bits of the fractional part of the root of its prime, in the integer form of the
rules; `Nat.nth Nat.Prime i` is the `i`-th prime counted from `p_0 = 2`. -/
def Obligations.ConstantsAreRootsOfPrimes : Prop :=
  (∀ i : Fin 64, ∃ r, IsFloorCbrt (Nat.nth Nat.Prime i.val * 2 ^ 96) r ∧ kRom[i] = BitVec.ofNat 32 r) ∧
  (∀ i : Fin 8, ∃ r, IsFloorSqrt (Nat.nth Nat.Prime i.val * 2 ^ 64) r ∧ h0[i] = BitVec.ofNat 32 r)

/-- 95 V9 (its checksums for a transcribed table) and 41 §1, §2 (the column of primes). -/
def Obligations.ConstantTablesChecksums : Prop :=
  add32s kRom.toList = 0x941D1755 ∧ kRom.toList.foldl xor32 0 = 0x95C49CF5 ∧ add32s h0.toList = 0x6EA8DF67 ∧
  tablePrimes.length = 64 ∧ ∀ i : Fin 64, tablePrimes.getD i.val 0 = Nat.nth Nat.Prime i.val

/-- R36: block words are big-endian. -/
def Obligations.BlockWordsAreBigEndian : Prop :=
  ∀ (B : Block) (i : Fin 16),
    bufWord B i = B[4 * i.val] ++ B[4 * i.val + 1] ++ B[4 * i.val + 2] ++ B[4 * i.val + 3] ∧
    (bufWord B i).toNat =
      B[4 * i.val].toNat * 2 ^ 24 + B[4 * i.val + 1].toNat * 2 ^ 16 + B[4 * i.val + 2].toNat * 2 ^ 8 +
      B[4 * i.val + 3].toNat

/-- R38: digest byte `i` in the rule's formula, so that the 32 bytes are the big-endian concatenation of the state words. -/
def Obligations.DigestIsBigEndianConcatenation : Prop :=
  (∀ (H : HashState) (i : Fin 32),
    (digestByte H (BitVec.ofNat 5 i.val)).toNat =
      (H[i.val / 4]'(by omega)).toNat / 2 ^ (24 - 8 * (i.val % 4)) % 256) ∧
  (∀ (H : HashState) (i : Fin 8),
    H[i] = digestByte H (BitVec.ofNat 5 (4 * i.val)) ++ digestByte H (BitVec.ofNat 5 (4 * i.val + 1)) ++
      digestByte H (BitVec.ofNat 5 (4 * i.val + 2)) ++ digestByte H (BitVec.ofNat 5 (4 * i.val + 3)))

/-- R99, R100: the schedule of a block: the 16 words of the block, then the recurrence. -/
def Obligations.ScheduleRecurrence : Prop :=
  ∀ B : Block,
    (∀ i : Fin 16, (expand B)[i.val] = bufWord B i) ∧
    (∀ j : Fin 64, ∀ _ : 16 ≤ j.val,
      (expand B)[j.val] =
        smallSigma1 (expand B)[j.val - 2] + (expand B)[j.val - 7] + smallSigma0 (expand B)[j.val - 15] +
          (expand B)[j.val - 16])

/-- R108 and 44 §3 (its remark on the simultaneous form): one round of the MIXER, the assignments in the order written, is the
simultaneous update of the eight registers; `W` stands, and `j` advances. -/
def Obligations.SequentialRoundIsSimultaneous : Prop :=
  ∀ (k : Work) (hj : k.j.toNat < 64),
    let r := k.regs
    let T1 := r.h + bigSigma1 r.e + ch r.e r.f r.g + kRom[k.j.toNat] + k.w[k.j.toNat]
    let T2 := bigSigma0 r.a + maj r.a r.b r.c
    mixRound k =
      { w := k.w, t1 := T1, t2 := T2, j := k.j + 1
        regs := { a := T1 + T2, b := r.a, c := r.b, d := r.c, e := r.d + T1, f := r.e, g := r.f, h := r.g } }

/-- 44 §5, 43 §3, 10 §6 and §8: the EXPANDER and the MIXER on the transients compute `Expand` and `Compress`, whatever the
transients held before; the sequencer ends at 64. -/
def Obligations.MixerComputesCompress : Prop :=
  ∀ (S : HashState) (B : Block) (k : Work),
    (runMixer S B k).w = expand B ∧ (runMixer S B k).j = 64 ∧ foldRegs S (runMixer S B k).regs = compress S B

/-- R107, R110: the register load and the fold, position by position. -/
def Obligations.LoadAndFoldByPosition : Prop :=
  ∀ S : HashState,
    loadRegs S = { a := S[0], b := S[1], c := S[2], d := S[3], e := S[4], f := S[5], g := S[6], h := S[7] } ∧
    ∀ r : Regs,
      (foldRegs S r).toList =
        [S[0] + r.a, S[1] + r.b, S[2] + r.c, S[3] + r.d, S[4] + r.e, S[5] + r.f, S[6] + r.g, S[7] + r.h]

/-! ## Messages (42_padder.md §1, §5; 46_host_sequences.md) -/

/-- R86: the four steps of `Pad`: the message, 0x80, the least number of zero bytes that makes the length 56 modulo 64, and the
big-endian bit length. -/
def Obligations.PadFollowsFourSteps : Prop :=
  ∀ m : Message, ∃ z : Nat,
    pad m = m.val ++ [0x80] ++ List.replicate z 0 ++
      (List.range 8).map (fun k => BitVec.ofNat 8 (8 * m.val.length / 2 ^ (8 * (7 - k)))) ∧
    (m.val.length + 1 + z) % 64 = 56 ∧
    (∀ z' < z, (m.val.length + 1 + z') % 64 ≠ 56) ∧
    (z : Int) = (55 - (m.val.length : Int)) % 64 ∧
    (pad m).length % 64 = 0

/-- 42 §1 (its list of consequences, items 1 to 4). -/
def Obligations.PaddedLengthAndBlockCount : Prop :=
  ∀ m : Message,
    (pad m).length % 64 = 0 ∧ (blocksOf (pad m)).length = (m.val.length + 8) / 64 + 1 ∧
    m.val.length + 9 ≤ (pad m).length ∧ (pad m).length ≤ m.val.length + 72 ∧
    ((blocksOf (pad m)).length = m.val.length / 64 + 1 ↔ m.val.length % 64 ≤ 55) ∧
    ((blocksOf (pad m)).length = m.val.length / 64 + 2 ↔ 56 ≤ m.val.length % 64)

/-- 42 §1 (item 6): different messages never pad to the same sequence, nor to the same blocks. -/
def Obligations.PadIsInjective : Prop :=
  ∀ m m' : Message, (pad m = pad m' → m = m') ∧ (blocksOf (pad m) = blocksOf (pad m') → m = m')

/-- R88: `Pad([])` is the single block 80 00 ... 00. -/
def Obligations.EmptyMessageIsPadded : Prop :=
  ∀ m : Message, m.val = [] → pad m = 0x80 :: List.replicate 63 0 ∧ (blocksOf (pad m)).length = 1

/-- R131: the known digests, of the empty message and of 61 62 63, as the 32 bytes their printed forms denote; and a message of
55 bytes takes one block, one of 56 bytes two. -/
def Obligations.KnownDigests : Prop :=
  (∀ m : Message, m.val = [] → hashBytes m =
    [0xE3, 0xB0, 0xC4, 0x42, 0x98, 0xFC, 0x1C, 0x14, 0x9A, 0xFB, 0xF4, 0xC8, 0x99, 0x6F, 0xB9, 0x24,
     0x27, 0xAE, 0x41, 0xE4, 0x64, 0x9B, 0x93, 0x4C, 0xA4, 0x95, 0x99, 0x1B, 0x78, 0x52, 0xB8, 0x55]) ∧
  (∀ m : Message, m.val = [0x61, 0x62, 0x63] → hashBytes m =
    [0xBA, 0x78, 0x16, 0xBF, 0x8F, 0x01, 0xCF, 0xEA, 0x41, 0x41, 0x40, 0xDE, 0x5D, 0xAE, 0x22, 0x23,
     0xB0, 0x03, 0x61, 0xA3, 0x96, 0x17, 0x7A, 0x9C, 0xB4, 0x10, 0xFF, 0x61, 0xF2, 0x00, 0x15, 0xAD]) ∧
  (∀ m : Message, m.val.length = 55 → (blocksOf (pad m)).length = 1) ∧
  (∀ m : Message, m.val.length = 56 → (blocksOf (pad m)).length = 2)

/-- 46 §3 (length extension): with `tail` the padding `Pad` appends to `m1`, the state of the longer message `m1 ++ tail ++ suffix`
is computed from the state of `m1` alone, `suffix` and the lengths. -/
def Obligations.LengthExtension : Prop :=
  ∀ (m1 m2 : Message) (suffix : List Byte),
    m2.val = pad m1 ++ suffix →
    hashState m2 = chain (hashState m1) (blocksOf (suffix ++ padTail m2.val.length))

/-! ## Whole-machine rules -/

/-- 10 §9 (items 3 to 6 of its invariants): every step keeps them, from every state that meets them. -/
def Obligations.StepKeepsCounters : Prop :=
  ∀ s t : State, Safety.CountersAgree s → step s = .next t → Safety.CountersAgree t

/-- 10 §9, §10: the reset state meets them. -/
def Obligations.ResetMeetsCounters : Prop := Safety.CountersAgree State.reset

/-- 42 §5, 10 §9 (item 5, the number of compressions): in every phase the state stands for a message, and every step keeps that. -/
def Obligations.StepKeepsSessionMeaning : Prop :=
  ∀ s t : State, Safety.SessionStandsForMessage s → step s = .next t → Safety.SessionStandsForMessage t

/-- 10 §10: the reset state stands for no message. -/
def Obligations.ResetMeetsSessionMeaning : Prop := Safety.SessionStandsForMessage State.reset

/-- 10 §8, 70 §3 (residue): the host can observe nothing of the transients, of `BUF[N..64)`, or of `H` and `LEN` in IDLE. From two
states it cannot tell apart every step leads to two states it cannot tell apart. -/
def Obligations.NothingHiddenIsObservable : Prop :=
  ∀ s t : State, Safety.SameToHost s t →
    ∃ s' t', step s = .next s' ∧ step t = .next t' ∧ Safety.SameToHost s' t'

/-- 42 §5: the command sequence INIT, one PUTB a byte, FINAL, from any state, is accepted throughout and leaves the state the
one-shot function gives: streaming and one-shot form agree. -/
def Obligations.StreamingAgreesWithOneShot : Prop :=
  ∀ (m : Message) (s : State), ∃ t,
    runCommands ([.init 0] ++ putm (byteArgs m.val) ++ [.final 0]) s =
      some (List.replicate (m.val.length + 2) (okResponse 0), t) ∧
    t.h = chain h0 (blocksOf (pad m)) ∧ t.phase = .done ∧ t.n = 0 ∧ t.len.toNat = 8 * m.val.length

/-- 46 §2, 30 §7: the pseudo-command HASH answers, after the zeros of INIT, PUTB and FINAL, the 32 bytes of `Hash(m)`, every
status OK, from any state; followed by RDHEX it answers the 64 characters of `HashHex(m)`. -/
def Obligations.HashSequenceReturnsDigest : Prop :=
  ∀ (m : Message) (s : State), ∃ t,
    runCommands (hashCommands (byteArgs m.val) ++ rdhex) s =
      some (List.replicate (m.val.length + 2) (okResponse 0) ++ (hashBytes m).map (fun b => okResponse (b.setWidth 32)) ++
        (hashHex m).map (fun b => okResponse (b.setWidth 32)), t)

/-- 46 §3 (determinism): the responses to a command sequence that begins with INIT do not depend on the state the engine was in
before it. -/
def Obligations.ResponsesIndependentOfHistory : Prop :=
  ∀ (is : List Instr) (s t : State), ∃ rs s' t',
    runCommands (.init 0 :: is) s = some (rs, s') ∧ runCommands (.init 0 :: is) t = some (rs, t')
end

