-- ==== Sys2Proof/Laws/Buffer.lean ====
section
/-! SUPPORT. What one element of a block reads as after each operation on blocks. -/

namespace Sys2Proof.Machine

@[simp] theorem zeroFill_get (lo hi : Nat) (B : Block) (i : Nat) (h : i < 64) :
    (zeroFill lo hi B)[i] = if lo ≤ i ∧ i < hi then 0 else B[i] := by
  simp [zeroFill]

@[simp] theorem putLength_get (v : BitVec 64) (B : Block) (i : Nat) (h : i < 64) :
    (putLength v B)[i] = if 56 ≤ i then be64Byte v (i - 56) else B[i] := by
  simp [putLength]

/-- R37: byte `k` of the length field as a number. -/
theorem be64Byte_eq (v : BitVec 64) (k : Nat) : be64Byte v k = BitVec.ofNat 8 (v.toNat / 2 ^ (56 - 8 * k)) := by
  apply BitVec.eq_of_toNat_eq
  simp [be64Byte, Nat.shiftRight_eq_div_pow]

end Sys2Proof.Machine
end

