-- ==== Sys2Proof/Laws/State.lean ====
section
/-! SUPPORT. One lemma per field for each update of the state, so that no proof unfolds a record update. -/

namespace Sys2Proof.Machine

section afterReset
variable (d : Nat) (es : List HostEvent)
@[simp] theorem State.afterReset_n : (State.afterReset d es).n = 0 := rfl
@[simp] theorem State.afterReset_phase : (State.afterReset d es).phase = .idle := rfl
@[simp] theorem State.afterReset_resp : (State.afterReset d es).resp = none := rfl
@[simp] theorem State.afterReset_host : (State.afterReset d es).host = es := rfl
end afterReset

section storeAtN
variable (b : Byte) (s : State)
@[simp] theorem storeAtN_h : (storeAtN b s).h = s.h := rfl
@[simp] theorem storeAtN_buf : (storeAtN b s).buf = s.buf.set s.n.toNat b s.n.isLt := rfl
@[simp] theorem storeAtN_n : (storeAtN b s).n = s.n := rfl
@[simp] theorem storeAtN_len : (storeAtN b s).len = s.len := rfl
@[simp] theorem storeAtN_phase : (storeAtN b s).phase = s.phase := rfl
@[simp] theorem storeAtN_work : (storeAtN b s).work = s.work := rfl
@[simp] theorem storeAtN_resp : (storeAtN b s).resp = s.resp := rfl
@[simp] theorem storeAtN_host : (storeAtN b s).host = s.host := rfl
@[simp] theorem storeAtN_draws : (storeAtN b s).draws = s.draws := rfl
end storeAtN

section compressBlock
variable (s : State)
@[simp] theorem compressBlock_buf : (compressBlock s).buf = s.buf := rfl
@[simp] theorem compressBlock_n : (compressBlock s).n = s.n := rfl
@[simp] theorem compressBlock_len : (compressBlock s).len = s.len := rfl
@[simp] theorem compressBlock_phase : (compressBlock s).phase = s.phase := rfl
@[simp] theorem compressBlock_resp : (compressBlock s).resp = s.resp := rfl
@[simp] theorem compressBlock_host : (compressBlock s).host = s.host := rfl
end compressBlock

section forgetResidue
variable (s : State)
@[simp] theorem forgetResidue_h : (forgetResidue s).h = s.h := rfl
@[simp] theorem forgetResidue_n : (forgetResidue s).n = s.n := rfl
@[simp] theorem forgetResidue_len : (forgetResidue s).len = s.len := rfl
@[simp] theorem forgetResidue_phase : (forgetResidue s).phase = s.phase := rfl
@[simp] theorem forgetResidue_work : (forgetResidue s).work = s.work := rfl
@[simp] theorem forgetResidue_resp : (forgetResidue s).resp = s.resp := rfl
@[simp] theorem forgetResidue_host : (forgetResidue s).host = s.host := rfl
/-- R26: the received bytes stand. -/
theorem forgetResidue_buf (i : Nat) (h : i < 64) (hi : i < s.n.toNat) : (forgetResidue s).buf[i] = s.buf[i] := by
  simp [forgetResidue, hi]
end forgetResidue

section openSession
variable (s : State)
@[simp] theorem openSession_h : (openSession s).h = h0 := rfl
@[simp] theorem openSession_n : (openSession s).n = 0 := rfl
@[simp] theorem openSession_len : (openSession s).len = 0 := rfl
@[simp] theorem openSession_phase : (openSession s).phase = .active := rfl
@[simp] theorem openSession_work : (openSession s).work = s.work := rfl
@[simp] theorem openSession_resp : (openSession s).resp = s.resp := rfl
@[simp] theorem openSession_host : (openSession s).host = s.host := rfl
end openSession

section absorbByte
variable (b : Byte) (s : State)
@[simp] theorem absorbByte_len : (absorbByte b s).len = s.len + 8 := by
  unfold absorbByte; dsimp only; split <;> rfl
@[simp] theorem absorbByte_phase : (absorbByte b s).phase = s.phase := by
  unfold absorbByte; dsimp only; split <;> rfl
@[simp] theorem absorbByte_resp : (absorbByte b s).resp = s.resp := by
  unfold absorbByte; dsimp only; split <;> rfl
@[simp] theorem absorbByte_host : (absorbByte b s).host = s.host := by
  unfold absorbByte; dsimp only; split <;> rfl
/-- R22: `N` counts modulo 64. -/
theorem absorbByte_n : (absorbByte b s).n = s.n + 1 := by
  unfold absorbByte; dsimp only; split
  · rename_i h; rw [forgetResidue_n, h]; rfl
  · rfl
/-- R91, a byte that does not complete a block. -/
theorem absorbByte_of_ne (h : s.n ≠ 63) :
    absorbByte b s = forgetResidue { storeAtN b s with len := s.len + 8, n := s.n + 1 } := by
  unfold absorbByte; dsimp only; rw [if_neg h]
/-- R91, R26: byte `N` is the new byte, and the bytes before it stand. -/
theorem absorbByte_buf (h : s.n ≠ 63) (i : Nat) (hi : i < 64) (hn : i ≤ s.n.toNat) :
    (absorbByte b s).buf[i] = if s.n.toNat = i then b else s.buf[i] := by
  have h63 : s.n.toNat < 63 := by
    have := s.n.isLt
    have : s.n.toNat ≠ 63 := fun e => h (BitVec.eq_of_toNat_eq e)
    omega
  have e : (s.n + 1).toNat = s.n.toNat + 1 := by rw [BitVec.toNat_add]; simp; omega
  rw [absorbByte_of_ne b s h, forgetResidue_buf _ _ hi (by dsimp only; omega)]
  show (s.buf.set s.n.toNat b s.n.isLt)[i] = _
  rw [Vector.getElem_set]
/-- R91, the 64th byte of a block. -/
theorem absorbByte_of_eq (h : s.n = 63) :
    absorbByte b s = forgetResidue { compressBlock { storeAtN b s with len := s.len + 8 } with n := 0 } := by
  unfold absorbByte; dsimp only; rw [if_pos h]
end absorbByte

section padBuffer
variable (s : State)
@[simp] theorem padBuffer_n : (padBuffer s).n = s.n := by unfold padBuffer; dsimp only; split <;> rfl
@[simp] theorem padBuffer_len : (padBuffer s).len = s.len := by unfold padBuffer; dsimp only; split <;> rfl
@[simp] theorem padBuffer_phase : (padBuffer s).phase = s.phase := by unfold padBuffer; dsimp only; split <;> rfl
@[simp] theorem padBuffer_resp : (padBuffer s).resp = s.resp := by unfold padBuffer; dsimp only; split <;> rfl
@[simp] theorem padBuffer_host : (padBuffer s).host = s.host := by unfold padBuffer; dsimp only; split <;> rfl
theorem padBuffer_h_of_le (h : s.n.toNat ≤ 55) : (padBuffer s).h = s.h := by
  unfold padBuffer; dsimp only; rw [if_pos h]; rfl
theorem padBuffer_h_of_gt (h : ¬ s.n.toNat ≤ 55) :
    (padBuffer s).h =
      (compressBlock { storeAtN 0x80 s with buf := zeroFill (s.n.toNat + 1) 64 (storeAtN 0x80 s).buf }).h := by
  unfold padBuffer; dsimp only; rw [if_neg h]
theorem padBuffer_buf_of_le (h : s.n.toNat ≤ 55) :
    (padBuffer s).buf = zeroFill (s.n.toNat + 1) 56 (storeAtN 0x80 s).buf := by
  unfold padBuffer; dsimp only; rw [if_pos h]
theorem padBuffer_buf_of_gt (h : ¬ s.n.toNat ≤ 55) :
    (padBuffer s).buf = zeroFill 0 56 (zeroFill (s.n.toNat + 1) 64 (storeAtN 0x80 s).buf) := by
  unfold padBuffer; dsimp only; rw [if_neg h]; rfl
end padBuffer

section finishSession
variable (s : State)
/-- R94: the last compression works on the state after padding, with the length field in place. -/
theorem finishSession_h :
    (finishSession s).h = (compressBlock { padBuffer s with buf := putLength s.len (padBuffer s).buf }).h := by
  unfold finishSession; dsimp only; rw [forgetResidue_h]
@[simp] theorem finishSession_n : (finishSession s).n = 0 := rfl
@[simp] theorem finishSession_phase : (finishSession s).phase = .done := rfl
@[simp] theorem finishSession_len : (finishSession s).len = s.len := padBuffer_len s
@[simp] theorem finishSession_resp : (finishSession s).resp = s.resp := padBuffer_resp s
@[simp] theorem finishSession_host : (finishSession s).host = s.host := padBuffer_host s
end finishSession

section resetRequest
variable (s : State)
@[simp] theorem resetRequest_n : (resetRequest s).n = 0 := rfl
@[simp] theorem resetRequest_phase : (resetRequest s).phase = .idle := rfl
@[simp] theorem resetRequest_resp : (resetRequest s).resp = none := rfl
@[simp] theorem resetRequest_host : (resetRequest s).host = s.host := rfl
end resetRequest

section presentWord
variable (w : Word) (s : State)
@[simp] theorem presentWord_h : (presentWord w s).h = s.h := rfl
@[simp] theorem presentWord_buf : (presentWord w s).buf = s.buf := rfl
@[simp] theorem presentWord_n : (presentWord w s).n = s.n := rfl
@[simp] theorem presentWord_len : (presentWord w s).len = s.len := rfl
@[simp] theorem presentWord_phase : (presentWord w s).phase = s.phase := rfl
@[simp] theorem presentWord_work : (presentWord w s).work = s.work := rfl
@[simp] theorem presentWord_resp : (presentWord w s).resp = s.resp := rfl
@[simp] theorem presentWord_host : (presentWord w s).host = .cmd w :: s.host := rfl
@[simp] theorem presentWord_draws : (presentWord w s).draws = s.draws := rfl
end presentWord

end Sys2Proof.Machine
end

