-- ==== Sys2Proof/Laws/Checks.lean ====
section
/-! SUPPORT. What the shared checks of R61, and with them each command, can answer. -/

namespace Sys2Proof.Machine

@[simp] theorem reject_eq (e : Status) (s : State) :
    reject e s = .next { s with resp := some { status := e, rdata := 0 } } := rfl

@[simp] theorem respond_eq (v : Word) (s : State) :
    respond v s = .next { s with resp := some { status := .ok, rdata := v } } := rfl

theorem checked_of_arg_above {i : Instr} (h : i.argBound < i.arg.toNat) (s : State) (run : Result) :
    checked i s run = reject (argError i) s := by
  simp [checked, h]

theorem checked_of_not_permitted {i : Instr} {s : State} (h : i.arg.toNat ≤ i.argBound) (hp : permitted i s.phase = false)
    (run : Result) : checked i s run = reject .seq s := by
  simp [checked, Nat.not_lt.mpr h, hp]

theorem checked_of_permitted {i : Instr} {s : State} (h : i.arg.toNat ≤ i.argBound) (hp : permitted i s.phase = true)
    (run : Result) : checked i s run = run := by
  simp [checked, Nat.not_lt.mpr h, hp]

/-- Everything `checked` can answer: a rejection, or what the command's own part answers when both tests pass. -/
theorem checked_cases {i : Instr} {s t : State} {run : Result} (h : checked i s run = .next t) :
    (∃ e, (e = argError i ∨ e = .seq) ∧ t = { s with resp := some { status := e, rdata := 0 } }) ∨
    (i.arg.toNat ≤ i.argBound ∧ permitted i s.phase = true ∧ run = .next t) := by
  unfold checked at h
  split at h
  · exact .inl ⟨argError i, .inl rfl, by simpa using h.symm⟩
  · split at h
    · exact .inr ⟨by omega, ‹_›, h⟩
    · exact .inl ⟨.seq, .inr rfl, by simpa using h.symm⟩

section permitted
variable (a : Arg) (p : Phase)
@[simp] theorem permitted_init : permitted (.init a) p = true := by cases p <;> rfl
@[simp] theorem permitted_rds : permitted (.rds a) p = true := by cases p <;> rfl
@[simp] theorem permitted_rdk : permitted (.rdk a) p = true := by cases p <;> rfl
@[simp] theorem permitted_putb : permitted (.putb a) p = true ↔ p = .active := by cases p <;> simp [permitted]
@[simp] theorem permitted_final : permitted (.final a) p = true ↔ p = .active := by cases p <;> simp [permitted]
@[simp] theorem permitted_rdl : permitted (.rdl a) p = true ↔ p ≠ .idle := by cases p <;> simp [permitted]
@[simp] theorem permitted_rdh : permitted (.rdh a) p = true ↔ p ≠ .idle := by cases p <;> simp [permitted]
@[simp] theorem permitted_rdb : permitted (.rdb a) p = true ↔ p = .done := by cases p <;> simp [permitted]
@[simp] theorem permitted_rdx : permitted (.rdx a) p = true ↔ p = .done := by cases p <;> simp [permitted]
end permitted

theorem argError_ne_ok (i : Instr) : argError i ≠ .ok := by cases i <;> simp [argError]

theorem lengthExceeded_eq_true {s : State} : lengthExceeded s = true ↔ 2 ^ 64 - 1 < s.len.toNat + 8 := by
  simp [lengthExceeded]

/-- The words read commands answer with (R117 to R122, R85). -/
def readValue (s : State) : Instr → Word
  | .rds _ => statusWord s
  | .rdl a => lenHalf s.len (a.setWidth 1)
  | .rdh a => s.h[(a.setWidth 3).toNat]
  | .rdb a => (digestByte s.h (a.setWidth 5)).setWidth 32
  | .rdx a => (digestChar s.h (a.setWidth 6)).setWidth 32
  | .rdk a => krom (a.setWidth 6)
  | .init _ => 0
  | .putb _ => 0
  | .final _ => 0

/-- What an accepted command leaves, before its response is given. -/
def acceptedState (s : State) : Instr → State
  | .init _ => openSession s
  | .putb a => absorbByte (a.setWidth 8) s
  | .final _ => finishSession s
  | .rds _ => s
  | .rdl _ => s
  | .rdh _ => s
  | .rdb _ => s
  | .rdx _ => s
  | .rdk _ => s

/-- R61 tests 4 and 5: a command's own part, once the tests on its operand and the phase have passed. -/
def ownPart (i : Instr) (s : State) : Result :=
  if i.op = 0x02 ∧ lengthExceeded s then reject .length s
  else respond (readValue s i) (acceptedState s i)

/-- R61: every command is the shared checks before its own part. -/
theorem exec_eq_checked (i : Instr) (s : State) : exec i s = checked i s (ownPart i s) := by
  cases i with
  | putb a => simp [exec, execPutb, ownPart, readValue, acceptedState, Instr.op]
  | init | final | rds | rdl | rdh | rdb | rdx | rdk => simp [exec, ownPart, Instr.op]; rfl

/-- Everything a command can answer: a rejection that leaves all but the response, or its own effect, with the checks passed. -/
theorem exec_cases {i : Instr} {s t : State} (h : exec i s = .next t) :
    (∃ e, e ≠ .ok ∧ t = { s with resp := some { status := e, rdata := 0 } }) ∨
    (i.arg.toNat ≤ i.argBound ∧ permitted i s.phase = true ∧
      (∀ a, i = .putb a → s.len.toNat + 8 ≤ 2 ^ 64 - 1) ∧
      t = { acceptedState s i with resp := some { status := .ok, rdata := readValue s i } }) := by
  rw [exec_eq_checked] at h
  obtain ⟨e, he, ht⟩ | ⟨hb, hp, hr⟩ := checked_cases h
  · exact .inl ⟨e, by rcases he with rfl | rfl; exacts [argError_ne_ok i, by simp], ht⟩
  · unfold ownPart at hr
    split at hr
    · exact .inl ⟨.length, by simp, by simpa using hr.symm⟩
    · rename_i hl
      refine .inr ⟨hb, hp, fun a ha => ?_, by simpa using hr.symm⟩
      have hn : ¬ lengthExceeded s = true := fun hx => hl ⟨by subst ha; rfl, hx⟩
      rw [lengthExceeded_eq_true] at hn
      omega

/-- Everything a step can do: nothing, a reset request, a word that is no command, or a command. -/
theorem step_cases {s t : State} (h : step s = .next t) :
    (s.host = [] ∧ t = s) ∨
    (∃ es, s.host = .rst :: es ∧ t = resetRequest { s with host := es }) ∨
    (∃ w es e, s.host = .cmd w :: es ∧ decode w = .error e ∧
      t = { s with host := es, resp := some { status := .illegal, rdata := 0 } }) ∨
    (∃ w es i, s.host = .cmd w :: es ∧ decode w = .ok i ∧ exec i { s with host := es } = .next t) := by
  unfold step serveHost at h
  split at h
  · exact .inl ⟨‹_›, by simpa using h.symm⟩
  · rename_i e es he
    cases e with
    | rst => exact .inr (.inl ⟨es, he, by simpa [takeEvent] using h.symm⟩)
    | cmd w =>
      unfold takeEvent execWord at h
      dsimp only at h
      split at h
      · exact .inr (.inr (.inr ⟨w, es, _, he, ‹_›, h⟩))
      · exact .inr (.inr (.inl ⟨w, es, _, he, ‹_›, by simpa using h.symm⟩))

/-- A table word placed by `withFetchWord` is the command the very next step runs. -/
theorem step_withFetchWord {s : State} {nbits w : Nat} {i : Instr} (h : decodeTableWord nbits w = some i) :
    step (s.withFetchWord nbits w) = exec i s := by
  have hd : decode (BitVec.ofNat 32 (w % 2 ^ nbits)) = .ok i := by
    unfold decodeTableWord at h
    split at h
    · split at h
      · rename_i j hj; simp only [Option.some.injEq] at h; rw [hj, h]
      · simp at h
    · simp at h
  simp [step, serveHost, State.withFetchWord, presentWord, takeEvent, execWord, hd]

end Sys2Proof.Machine
end

