-- ==== Sys2Proof/Laws/Datapath.lean ====
section
/-! SUPPORT. Small lemmas of the datapath: sums, the sequencer, the constant ROM, the list the schedule is built as. -/

namespace Sys2Proof.Machine

/-- The schedule's four-operand sum (R100) as a chain. -/
theorem add32s_four (a b c d : Word) : add32s [a, b, c, d] = a + b + c + d := by simp [add32s, add32]

/-- The five-operand sum of `T1` (R108) as a chain. -/
theorem add32s_five (a b c d e : Word) : add32s [a, b, c, d, e] = a + b + c + d + e := by simp [add32s, add32]

theorem repeatStep_zero {α : Type} (f : α → α) (x : α) : repeatStep f 0 x = x := rfl

/-- One more step of the sequencer comes last. -/
theorem repeatStep_succ {α : Type} (f : α → α) (n : Nat) (x : α) :
    repeatStep f (n + 1) x = f (repeatStep f n x) := by
  induction n generalizing x with
  | zero => rfl
  | succ n ih => rw [repeatStep, ih]; rfl

theorem kRom_get (i : Nat) (h : i < 64) : kRom[i] = kRows.getD i 0 := by simp only [kRom, Vector.getElem_ofFn]

theorem scheduleWords_length (B : Block) (n : Nat) : (scheduleWords B n).length = 16 + n := by
  induction n with
  | zero => simp [scheduleWords]
  | succ n ih => simp [scheduleWords, ih]; omega

/-- A schedule word never changes once it is written. -/
theorem scheduleWords_stable (B : Block) (n m i : Nat) (hi : i < 16 + n) :
    (scheduleWords B (n + m)).getD i 0 = (scheduleWords B n).getD i 0 := by
  induction m with
  | zero => rfl
  | succ m ih =>
    rw [← ih, ← Nat.add_assoc, scheduleWords]
    simp only [List.getD_eq_getElem?_getD]
    rw [List.getElem?_append_left (by rw [scheduleWords_length]; omega)]

/-- A word of `Expand(B)` read off any prefix of the schedule that holds it. -/
theorem expand_get (B : Block) (n i : Nat) (hn : n ≤ 48) (hi : i < 16 + n) (h : i < 64) :
    (expand B)[i] = (scheduleWords B n).getD i 0 := by
  simp only [expand, Vector.getElem_ofFn]
  rw [show 48 = n + (48 - n) by omega, scheduleWords_stable _ _ _ _ hi]

section loadSchedule
variable (B : Block) (k : Work)
@[simp] theorem loadSchedule_j : (loadSchedule B k).j.toNat = 16 := by simp [loadSchedule]
@[simp] theorem loadSchedule_regs : (loadSchedule B k).regs = k.regs := by simp [loadSchedule]
theorem loadSchedule_w (i : Nat) (h : i < 16) : (loadSchedule B k).w[i] = bufWord B ⟨i, h⟩ := by
  simp only [loadSchedule, Vector.getElem_ofFn, h, dif_pos]
end loadSchedule

section loadMixer
variable (S : HashState) (k : Work)
@[simp] theorem loadMixer_j : (loadMixer S k).j = 0 := rfl
@[simp] theorem loadMixer_w : (loadMixer S k).w = k.w := rfl
@[simp] theorem loadMixer_regs : (loadMixer S k).regs = loadRegs S := rfl
end loadMixer

/-- R100 on the transients: entry `j` is written, every other entry stands, and `j` advances. -/
theorem expandStep_spec (k : Work) (h : 16 ≤ k.j.toNat ∧ k.j.toNat < 64) :
    (expandStep k).j.toNat = k.j.toNat + 1 ∧ (expandStep k).regs = k.regs ∧
    ∀ i (_ : i < 64), (expandStep k).w[i] =
      if i = k.j.toNat then
        scheduleSum k.w[k.j.toNat - 2] k.w[k.j.toNat - 7] k.w[k.j.toNat - 15] k.w[k.j.toNat - 16]
      else k.w[i] := by
  unfold expandStep
  rw [dif_pos h]
  refine ⟨?_, rfl, fun i hi => ?_⟩
  · rw [BitVec.toNat_add]; simp; omega
  · simp only
    rw [Vector.getElem_set]
    simp only [eq_comm]

/-- `Chain` over a concatenation is `Chain` of `Chain` (46_host_sequences.md section 3). -/
theorem chain_append (S : HashState) (xs ys : List Block) : chain S (xs ++ ys) = chain (chain S xs) ys := by
  induction xs generalizing S with
  | nil => rfl
  | cons P rest ih => exact ih _

end Sys2Proof.Machine
end

