-- ==== Sys2Proof/Laws/Digest.lean ====
section
/-! SUPPORT. What parsing a rendered digit gives back (45_digest.md R121, R123). -/

namespace Sys2Proof.Machine

@[simp] theorem hexDigitValue_hexDigit (n : BitVec 4) : hexDigitValue (hexDigit n) = some n := by
  revert n; decide

/-- The two characters of a byte carry its two nibbles. -/
theorem nibbles_append (b : Byte) : b.extractLsb' 4 4 ++ b.extractLsb' 0 4 = b := by
  apply BitVec.eq_of_getLsbD_eq
  intro i hi
  rw [BitVec.getLsbD_append]
  by_cases h : i < 4
  · simp [h]
  · simp [h, show i - 4 < 4 by omega, show 4 + (i - 4) = i by omega]

end Sys2Proof.Machine
end

