-- ==== Sys2Proof/Laws/PerInstr.lean ====
section
/-! SUPPORT. Per command: the two fields of its encoding are its operation code and its operand (30_encoding.md R54, R56, R65). -/

open Sys2Proof

/-- R54: the fields of the encoded word. -/
def Sys2Proof.Laws.EncodedFields.Statement (i : Instr) : Prop :=
  opField (encode i) = i.op ∧ argField (encode i) = i.arg

/-- R65: `(op << 24) | arg` keeps both fields apart. -/
theorem Sys2Proof.Laws.EncodedFields.of_fields (i : Instr) : Sys2Proof.Laws.EncodedFields.Statement i := by
  refine ⟨BitVec.eq_of_getLsbD_eq fun k hk => ?_, BitVec.eq_of_getLsbD_eq fun k hk => ?_⟩
  · simp [encode, opField, hk, show 24 + k < 32 by omega]
  · simp [encode, argField, hk, show k < 32 by omega]

theorem Sys2Proof.Laws.EncodedFields.init (arg : Arg) : Sys2Proof.Laws.EncodedFields.Statement (.init arg) :=
  Sys2Proof.Laws.EncodedFields.of_fields _

theorem Sys2Proof.Laws.EncodedFields.putb (arg : Arg) : Sys2Proof.Laws.EncodedFields.Statement (.putb arg) :=
  Sys2Proof.Laws.EncodedFields.of_fields _

theorem Sys2Proof.Laws.EncodedFields.final (arg : Arg) : Sys2Proof.Laws.EncodedFields.Statement (.final arg) :=
  Sys2Proof.Laws.EncodedFields.of_fields _

theorem Sys2Proof.Laws.EncodedFields.rds (arg : Arg) : Sys2Proof.Laws.EncodedFields.Statement (.rds arg) :=
  Sys2Proof.Laws.EncodedFields.of_fields _

theorem Sys2Proof.Laws.EncodedFields.rdl (arg : Arg) : Sys2Proof.Laws.EncodedFields.Statement (.rdl arg) :=
  Sys2Proof.Laws.EncodedFields.of_fields _

theorem Sys2Proof.Laws.EncodedFields.rdh (arg : Arg) : Sys2Proof.Laws.EncodedFields.Statement (.rdh arg) :=
  Sys2Proof.Laws.EncodedFields.of_fields _

theorem Sys2Proof.Laws.EncodedFields.rdb (arg : Arg) : Sys2Proof.Laws.EncodedFields.Statement (.rdb arg) :=
  Sys2Proof.Laws.EncodedFields.of_fields _

theorem Sys2Proof.Laws.EncodedFields.rdx (arg : Arg) : Sys2Proof.Laws.EncodedFields.Statement (.rdx arg) :=
  Sys2Proof.Laws.EncodedFields.of_fields _

theorem Sys2Proof.Laws.EncodedFields.rdk (arg : Arg) : Sys2Proof.Laws.EncodedFields.Statement (.rdk arg) :=
  Sys2Proof.Laws.EncodedFields.of_fields _
end

