-- ==== Sys2Proof/Tests/Slice0.lean ====
section
/-! SUPPORT. The model's own tests: the operand bounds, words written out from the encoding, single steps whose results stand in
95_test_vectors.md, and for every obligation with hypotheses a witness that meets them. -/

namespace Sys2Proof.Tests
open Sys2Proof Sys2Proof.Machine

/-! ## Helpers -/

/-- A state with 64 bytes 0x61 in the buffer and `H = H0`. -/
def demo (p : Phase) (n : BitVec 6) (len : BitVec 64) : State where
  h := h0
  buf := Vector.replicate 64 0x61
  n := n
  len := len
  phase := p
  work :=
    { w := Vector.replicate 64 0, regs := { a := 0, b := 0, c := 0, d := 0, e := 0, f := 0, g := 0, h := 0 }
      t1 := 0, t2 := 0, j := 0 }
  resp := none
  host := []
  draws := 1

/-- V11: the session of 61 62 63 after its three bytes. -/
def abcOpen : State := { demo .active 3 24 with buf := Vector.ofFn fun i => BitVec.ofNat 8 (0x61 + i) }

/-- V11: the same session finalized; `H` is the digest V2 prints. -/
def abcDone : State :=
  { demo .done 0 24 with
    h := #v[0xBA7816BF, 0x8F01CFEA, 0x414140DE, 0x5DAE2223, 0xB00361A3, 0x96177A9C, 0xB410FF61, 0xF20015AD] }

/-- A command's response. -/
def answer (o : Result) : Option Response :=
  match o with
  | .next t => t.resp
  | .fault _ => none
  | .refused _ => none

/-- A field of a command's next state. -/
def after {α : Type} (f : State → α) (o : Result) : Option α :=
  match o with
  | .next t => some (f t)
  | .fault _ => none
  | .refused _ => none

def ok (v : Word) : Option Response := some { status := .ok, rdata := v }
def rejected (e : Status) : Option Response := some { status := e, rdata := 0 }

/-- The empty message. -/
def emptyMessage : Message := ⟨[], by decide⟩

/-! ## Operand bounds (R59): an ill-formed command for each bound -/

theorem test_wellformed_refuses_each_bound :
    ([.init 1, .putb 256, .final 1, .rds 1, .rdl 2, .rdh 8, .rdb 32, .rdx 64, .rdk 64] : List Instr).map Instr.wf =
      List.replicate 9 false := by decide

theorem test_wellformed_admits_each_bound :
    ([.init 0, .putb 255, .final 0, .rds 0, .rdl 1, .rdh 7, .rdb 31, .rdx 63, .rdk 63] : List Instr).map Instr.wf =
      List.replicate 9 true := by decide

/-! ## Words written out from R54 and R56: `op` in bits 31 to 24, `arg` in bits 23 to 0 -/

theorem test_decode_init : decode ((0b00000001 : BitVec 8) ++ (0b000000000000000000000000 : BitVec 24)) = .ok (.init 0) := by decide
theorem test_decode_putb : decode ((0b00000010 : BitVec 8) ++ (0b000000000000000001100001 : BitVec 24)) = .ok (.putb 0x61) := by decide
theorem test_decode_final : decode ((0b00000011 : BitVec 8) ++ (0b000000000000000000000000 : BitVec 24)) = .ok (.final 0) := by decide
theorem test_decode_rds : decode ((0b00010000 : BitVec 8) ++ (0b000000000000000000000000 : BitVec 24)) = .ok (.rds 0) := by decide
theorem test_decode_rdl : decode ((0b00010001 : BitVec 8) ++ (0b000000000000000000000001 : BitVec 24)) = .ok (.rdl 1) := by decide
theorem test_decode_rdh : decode ((0b00010010 : BitVec 8) ++ (0b000000000000000000000111 : BitVec 24)) = .ok (.rdh 7) := by decide
theorem test_decode_rdb : decode ((0b00010011 : BitVec 8) ++ (0b000000000000000000011111 : BitVec 24)) = .ok (.rdb 31) := by decide
theorem test_decode_rdx : decode ((0b00010100 : BitVec 8) ++ (0b000000000000000000111111 : BitVec 24)) = .ok (.rdx 63) := by decide
theorem test_decode_rdk : decode ((0b00010101 : BitVec 8) ++ (0b000000000000000000111111 : BitVec 24)) = .ok (.rdk 63) := by decide

/-- R55: the operand is never truncated; bit 23 belongs to it and bit 24 to `op`. -/
theorem test_decode_keeps_whole_operand :
    decode ((0b00000010 : BitVec 8) ++ (0b100000000000000100000000 : BitVec 24)) = .ok (.putb 0x800100) := by decide

theorem test_decode_reserved : decode 0x00000000 = .error (.unassignedOp 0x00) ∧ decode 0x16000000 = .error (.unassignedOp 0x16) := by
  decide

/-- R65, its examples. -/
theorem test_encode_lines :
    encode (.init 0) = 0x01000000 ∧ encode (.putb 0x61) = 0x02000061 ∧ encode (.rdh 7) = 0x12000007 ∧
    encode (.rdx 63) = 0x1400003F := by decide

/-- Every row of the opcode table, as the host numbers its bits, decodes and is the first command a step after reset runs. -/
theorem test_table_words :
    ([0x01000000, 0x02000000, 0x03000000, 0x10000000, 0x11000000, 0x12000000, 0x13000000, 0x14000000, 0x15000000].map
      fun w => decodeTableWord 32 w) =
    [some (.init 0), some (.putb 0), some (.final 0), some (.rds 0), some (.rdl 0), some (.rdh 0), some (.rdb 0),
      some (.rdx 0), some (.rdk 0)] := by decide

theorem test_step_runs_table_word : step (State.reset.withFetchWord 32 0x15000001) = exec (.rdk 1) State.reset := rfl

/-! ## Single steps -/

/-- R90, its example. -/
theorem test_init_opens :
    after (fun t => (t.h[0], t.n, t.len, t.phase)) (exec (.init 0) abcDone) = some (0x6A09E667, 0, 0, .active) := by decide
/-- P3: INIT 1. -/
theorem test_init_operand : answer (exec (.init 1) abcDone) = rejected .illegal := by decide
/-- V14, second row. -/
theorem test_putb_near_bound :
    after (fun t => (t.len, t.n, t.resp)) (exec (.putb 0x61) (demo .active 62 0xFFFFFFFFFFFFFFF0)) =
      some (0xFFFFFFFFFFFFFFF8, 63, ok 0) := by decide
/-- V15, P4: the 64th of the bytes 00 to 3f. -/
theorem test_putb_compresses :
    after (fun t => (t.h.toList, t.n))
      (exec (.putb 0x3F) { demo .active 63 504 with buf := Vector.ofFn fun i => BitVec.ofNat 8 i }) =
    some ([0xFC99A2DF, 0x88F42A7A, 0x7BB9D180, 0x33CDC6A2, 0x0256755F, 0x9D5B9A50, 0x44A9CC31, 0x5ABE84A7], 0) := by
  decide +kernel
/-- V2: the digest of 61 62 63. -/
theorem test_final_one_block : after (fun t => t.h) (exec (.final 0) abcOpen) = some abcDone.h := by decide +kernel
/-- V4, P2: 56 bytes 0x61, two blocks. -/
theorem test_final_two_blocks :
    after (fun t => t.h.toList) (exec (.final 0) (demo .active 56 448)) =
      some [0xB35439A4, 0xAC6F0948, 0xB6D6F9E3, 0xC6AF0F5F, 0x590CE20F, 0x1BDE7090, 0xEF797068, 0x6EC6738A] := by
  decide +kernel
/-- V11; R117: after 63 PUTB. -/
theorem test_rds :
    answer (exec (.rds 0) abcOpen) = ok 0x00000301 ∧ answer (exec (.rds 0) (demo .active 63 504)) = ok 0x00003F01 := by decide
theorem test_rds_done : answer (exec (.rds 0) abcDone) = ok 0x00000002 := by decide
/-- V14: the halves of the greatest length. -/
theorem test_rdl_halves :
    answer (exec (.rdl 1) (demo .done 0 0xFFFFFFFFFFFFFFF8)) = ok 0xFFFFFFFF ∧
    answer (exec (.rdl 0) (demo .done 0 0xFFFFFFFFFFFFFFF8)) = ok 0xFFFFFFF8 := by decide
/-- V11. -/
theorem test_rdh : answer (exec (.rdh 0) abcDone) = ok 0xBA7816BF ∧ answer (exec (.rdh 7) abcOpen) = ok 0x5BE0CD19 := by decide
/-- P3: the bound comes before the phase. -/
theorem test_rdh_bound_before_phase : answer (exec (.rdh 8) (demo .idle 0 0)) = rejected .illegal := by decide
/-- V11. -/
theorem test_rdb :
    [0, 1, 3, 4, 31].map (fun i => answer (exec (.rdb i) abcDone)) = [ok 0xBA, ok 0x78, ok 0xBF, ok 0x8F, ok 0xAD] := by decide
theorem test_rdb_only_done : answer (exec (.rdb 0) abcOpen) = rejected .seq := by decide
/-- V11. -/
theorem test_rdx :
    [0, 1, 2, 7, 8, 63].map (fun i => answer (exec (.rdx i) abcDone)) =
      [ok 0x62, ok 0x61, ok 0x37, ok 0x66, ok 0x38, ok 0x64] := by decide
theorem test_rdx_only_done : answer (exec (.rdx 0) abcOpen) = rejected .seq := by decide
/-- V9. -/
theorem test_rdk :
    [1, 15, 16, 31, 32, 62, 63].map (fun i => answer (exec (.rdk i) (demo .idle 0 0))) =
      [ok 0x71374491, ok 0xC19BF174, ok 0xE49B69C1, ok 0x14292967, ok 0x27B70A85, ok 0xBEF9A3F7, ok 0xC67178F2] := by decide
/-- V13, priority: unassigned `op` before anything else. -/
theorem test_unassigned_first : answer (execWord 0xFF000100 (demo .idle 0 0)) = rejected .illegal := by decide
/-- V13: PUTB 0x100 in IDLE. -/
theorem test_value_before_phase : answer (execWord 0x02000100 (demo .idle 0 0)) = rejected .value := by decide

/-! ## The datapath and the notation -/

/-- V15: the schedule of the bytes 00 to 3f. -/
theorem test_expand :
    [0, 15, 16, 17, 63].map (fun j => (expand (Vector.ofFn fun i => BitVec.ofNat 8 i)).toList.getD j 0) =
      [0x00010203, 0x3C3D3E3F, 0x2D84894C, 0xBA99985F, 0x24A97715] := by decide +kernel
/-- V15: one compression of 64 zero bytes. -/
theorem test_compress_zero_block :
    (compress h0 (Vector.replicate 64 0)).toList =
      [0xDA5698BE, 0x17B9B469, 0x62335799, 0x779FBECA, 0x8CE5D491, 0xC0D26243, 0xBAFEF9EA, 0x1837A9D8] := by decide +kernel
/-- V2's first and last bytes; R116: an upper-case digit is none. -/
theorem test_parse_hex :
    parseHex [0x62, 0x61, 0x61, 0x64] = some [0xBA, 0xAD] ∧ parseHex [0x42, 0x41] = none ∧ parseHex [0x62] = none := by decide
/-- R65, its examples. -/
theorem test_assemble :
    assembleLine ['P', 'U', 'T', 'B', ' ', '0', 'x', '6', '1', ' ', ';', 'a'] = some [0x02000061] ∧
    assembleLine ['R', 'D', 'X', ' ', '6', '3'] = some [0x1400003F] ∧ assembleLine ['I', 'N', 'I', 'T'] = some [0x01000000] := by
  decide
/-- R66: `RDLEN`, the high half first, and `PUTM` of an empty list. -/
theorem test_pseudo :
    assembleLine ['R', 'D', 'L', 'E', 'N'] = some [0x11000001, 0x11000000] ∧ assembleLine ['P', 'U', 'T', 'M'] = some [] := by decide

/-! ## Witnesses: the hypotheses of each obligation can be met -/

/-- The ends of the three reserved ranges of R62. -/
theorem witness_ReservedOpIsRejected :
    ([0x00FFFFFF, 0x04000000, 0x0F000000, 0x16000000, 0xFFFFFFFF] : List Word).all
      (fun w => !([1, 2, 3, 0x10, 0x11, 0x12, 0x13, 0x14, 0x15].contains (w.toNat / 2 ^ 24))) = true := by decide

theorem witness_RejectionWritesNothing :
    ∃ w s t r, execWord w s = .next t ∧ t.resp = some r ∧ r.status ≠ .ok :=
  ⟨0x02000100, abcOpen, _, _, rfl, rfl, by decide⟩

theorem witness_WriteCommandsAnswerZero :
    (∃ s t, Safety.isRead (.init 0) = false ∧ exec (.init 0) s = .next t) ∧
    (∃ s t, Safety.isRead (.putb 0x61) = false ∧ exec (.putb 0x61) s = .next t) ∧
    (∃ s t, Safety.isRead (.final 0) = false ∧ exec (.final 0) s = .next t) :=
  ⟨⟨abcDone, _, rfl, rfl⟩, ⟨abcOpen, _, rfl, rfl⟩, ⟨abcOpen, _, rfl, rfl⟩⟩

theorem witness_StepRunsDecodedCommand :
    (∃ (s : State) (w : Word) (es : List HostEvent) (i : Instr), s.host = .cmd w :: es ∧ decode w = .ok i) ∧
    (∃ (s : State) (w : Word) (es : List HostEvent) (e : DecodeError), s.host = .cmd w :: es ∧ decode w = .error e) :=
  ⟨⟨presentWord 0x1500003F State.reset, 0x1500003F, [], .rdk 63, rfl, rfl⟩,
   ⟨presentWord 0x00000000 State.reset, 0x00000000, [], .unassignedOp 0, rfl, rfl⟩⟩

theorem witness_ResetRequestEffect : ∃ (s : State) (es : List HostEvent), s.host = .rst :: es :=
  ⟨{ abcDone with host := [.rst] }, [], rfl⟩

theorem witness_IdleStepHoldsState : State.reset.host = [] := rfl

theorem witness_EveryStepAnswers :
    ∃ (s t : State) (w : Word) (es : List HostEvent), s.host = .cmd w :: es ∧ step s = .next t :=
  ⟨presentWord 0x10000000 State.reset, _, 0x10000000, [], rfl, rfl⟩

theorem witness_InitOpensSession : (1 : Arg) ≠ 0 ∧ (0xFFFFFF : Arg) ≠ 0 := by decide

/-- Each clause at its boundary: 256; 255 outside ACTIVE; V14's last row; V14's second row; and `N = 63` below the bound. -/
theorem witness_PutbAbsorbsByte :
    255 < (256 : Arg).toNat ∧ ((255 : Arg).toNat ≤ 255 ∧ abcDone.phase ≠ .active ∧ State.reset.phase ≠ .active) ∧
    ((demo .active 63 0xFFFFFFFFFFFFFFF8).phase = .active ∧
      2 ^ 64 - 1 < (demo .active 63 0xFFFFFFFFFFFFFFF8).len.toNat + 8) ∧
    ((demo .active 62 0xFFFFFFFFFFFFFFF0).phase = .active ∧
      (demo .active 62 0xFFFFFFFFFFFFFFF0).len.toNat + 8 ≤ 2 ^ 64 - 1 ∧
      (demo .active 62 0xFFFFFFFFFFFFFFF0).n.toNat ≠ 63) ∧
    ((demo .active 63 504).phase = .active ∧ (demo .active 63 504).len.toNat + 8 ≤ 2 ^ 64 - 1 ∧
      (demo .active 63 504).n.toNat = 63) := by decide

theorem witness_NonByteIsNotAbsorbed :
    (0x000100 : Arg).extractLsb' 8 16 ≠ 0 ∧ (0x800000 : Arg).extractLsb' 8 16 ≠ 0 := by decide

theorem witness_LengthBoundIsReachedOnce :
    ((demo .active 63 0xFFFFFFFFFFFFFFF8).phase = .active ∧ (255 : Arg).toNat ≤ 255 ∧
      (demo .active 63 0xFFFFFFFFFFFFFFF8).len.toNat % 8 = 0) ∧
    ((demo .active 0 0).phase = .active ∧ (demo .active 0 0).len.toNat % 8 = 0) := by decide

/-- The two branches of FINAL at `N = 55` and `N = 56`. -/
theorem witness_FinalPadsAndCompresses :
    (1 : Arg) ≠ 0 ∧ abcDone.phase ≠ .active ∧ State.reset.phase ≠ .active ∧
    ((demo .active 55 440).phase = .active ∧ (demo .active 55 440).n.toNat ≤ 55) ∧
    ((demo .active 56 448).phase = .active ∧ ¬ (demo .active 56 448).n.toNat ≤ 55) := by decide

theorem witness_SessionCommandFrame :
    (∃ s t, exec (.init 0) s = .next t) ∧ (∃ s t : State, exec (.putb 0x61) s = .next t ∧ s.n.toNat ≠ 63) ∧
    (∃ s t, exec (.final 0) s = .next t) :=
  ⟨⟨abcDone, _, rfl⟩, ⟨abcOpen, _, rfl, by decide⟩, ⟨abcOpen, _, rfl⟩⟩

theorem witness_PhaseLifecycle :
    (∃ s t, takeEvent .rst s = .next t) ∧ (∃ s t, exec (.init 0) s = .next t ∧ Safety.Accepted t) ∧
    (∃ s t, exec (.putb 0x61) s = .next t ∧ Safety.Accepted t) ∧
    (∃ s t, exec (.final 0) s = .next t ∧ Safety.Accepted t) ∧
    (∃ s t, Safety.isRead (.rds 0) = true ∧ exec (.rds 0) s = .next t) ∧
    (∃ w s t, execWord w s = .next t ∧ ¬ Safety.Accepted t) :=
  ⟨⟨abcOpen, _, rfl⟩, ⟨abcOpen, _, rfl, rfl⟩, ⟨abcOpen, _, rfl, rfl⟩, ⟨abcOpen, _, rfl, rfl⟩, ⟨abcOpen, _, rfl, rfl⟩,
   ⟨0x02000100, abcOpen, _, rfl, by decide⟩⟩

theorem witness_IdleAnswersOnlyStatusAndRom :
    State.reset.phase = .idle ∧
    ([.init 0, .putb 255, .final 0, .rds 0, .rdl 1, .rdh 7, .rdb 31, .rdx 63, .rdk 63] : List Instr).all Instr.wf = true ∧
    (∃ w t, w ≠ (0x01000000 : Word) ∧ execWord w State.reset = .next t) :=
  ⟨rfl, by decide, 0x02000061, _, by decide, rfl⟩

/-- A step of each kind: none, rst, INIT, the PUTB of a 64th byte, FINAL with one block and with two. -/
theorem witness_HashStateWrittenOnlyByInitAndFold :
    (∃ s t, s.host = [] ∧ step s = .next t) ∧ (∃ s t, s.host = [.rst] ∧ step s = .next t) ∧
    (∃ s t, s.host = [.cmd 0x01000000] ∧ step s = .next t) ∧
    (∃ s t, s.phase = .active ∧ s.n.toNat = 63 ∧ s.host = [.cmd 0x0200003F] ∧ step s = .next t) ∧
    (∃ s t, s.phase = .active ∧ s.n.toNat = 55 ∧ s.host = [.cmd 0x03000000] ∧ step s = .next t) ∧
    (∃ s t, s.phase = .active ∧ s.n.toNat = 56 ∧ s.host = [.cmd 0x03000000] ∧ step s = .next t) :=
  ⟨⟨State.reset, _, rfl, rfl⟩, ⟨{ abcOpen with host := [.rst] }, _, rfl, rfl⟩,
   ⟨{ abcOpen with host := [.cmd 0x01000000] }, _, rfl, rfl⟩,
   ⟨{ demo .active 63 504 with host := [.cmd 0x0200003F] }, _, rfl, rfl, rfl, rfl⟩,
   ⟨{ demo .active 55 440 with host := [.cmd 0x03000000] }, _, rfl, rfl, rfl, rfl⟩,
   ⟨{ demo .active 56 448 with host := [.cmd 0x03000000] }, _, rfl, rfl, rfl, rfl⟩⟩

theorem witness_RdsReturnsStatus : (1 : Arg) ≠ 0 := by decide

theorem witness_RdlReturnsHalfOfLength :
    1 < (2 : Arg).toNat ∧ ((1 : Arg).toNat ≤ 1 ∧ State.reset.phase = .idle) ∧
    (abcOpen.phase ≠ .idle ∧ abcDone.phase ≠ .idle ∧ (0 : Arg).toNat ≤ 1) := by decide

theorem witness_RdhReturnsStateWord :
    7 < (8 : Arg).toNat ∧ ((7 : Arg).toNat ≤ 7 ∧ State.reset.phase = .idle) ∧ ((7 : Arg).toNat < 8 ∧ abcDone.phase ≠ .idle) := by
  decide

theorem witness_RdbReturnsDigestByte :
    31 < (32 : Arg).toNat ∧ ((31 : Arg).toNat ≤ 31 ∧ abcOpen.phase ≠ .done) ∧ ((31 : Arg).toNat < 32 ∧ abcDone.phase = .done) := by
  decide

theorem witness_RdxReturnsHexCharacter :
    63 < (64 : Arg).toNat ∧ ((63 : Arg).toNat ≤ 63 ∧ abcOpen.phase ≠ .done) ∧ ((63 : Arg).toNat < 64 ∧ abcDone.phase = .done) := by
  decide

theorem witness_RdkReturnsRoundConstant : 63 < (64 : Arg).toNat ∧ (63 : Arg).toNat < 64 := by decide

theorem witness_ReadsWriteNothing : ∃ i s t, Safety.isRead i = true ∧ exec i s = .next t := ⟨.rdh 7, abcDone, _, rfl, rfl⟩

theorem witness_DigestHasFixedLength : abcDone.phase = .done := rfl

theorem witness_HexRenderingIsInjective : toHex [0xBA, 0x78] = toHex [0xBA, 0x78] ∧ (0x62 : Byte) ∈ toHex [0xBA] := by decide

theorem witness_ManyOperandSumIsExactSumModulo : ([1, 2] : List Word).Perm [2, 1] := by decide

theorem witness_RotateMovesBits : 31 < 32 ∧ 1 ≤ (1 : BitVec 5).toNat ∧ 1 ≤ (31 : BitVec 5).toNat := by decide

theorem witness_BitIndex : 0 < 32 ∧ 31 < 32 := by decide

theorem witness_ScheduleRecurrence : 16 ≤ (16 : Fin 64).val ∧ 16 ≤ (63 : Fin 64).val := by decide

theorem witness_SequentialRoundIsSimultaneous :
    abcOpen.work.j.toNat < 64 ∧ ({ abcOpen.work with j := 63 } : Work).j.toNat < 64 := by decide

theorem witness_PadIsInjective :
    pad emptyMessage = pad emptyMessage ∧ blocksOf (pad emptyMessage) = blocksOf (pad emptyMessage) := ⟨rfl, rfl⟩

theorem witness_EmptyMessageIsPadded : emptyMessage.val = [] := rfl

theorem witness_KnownDigests :
    (∃ m : Message, m.val = []) ∧ (∃ m : Message, m.val = [0x61, 0x62, 0x63]) ∧ (∃ m : Message, m.val.length = 55) ∧
    (∃ m : Message, m.val.length = 56) :=
  ⟨⟨emptyMessage, rfl⟩, ⟨⟨[0x61, 0x62, 0x63], by decide⟩, rfl⟩, ⟨⟨List.replicate 55 0x61, by decide⟩, by decide⟩,
   ⟨⟨List.replicate 56 0x61, by decide⟩, by decide⟩⟩

theorem witness_LengthExtension : ∃ (m1 m2 : Message) (suffix : List Byte), m2.val = pad m1 ++ suffix :=
  ⟨emptyMessage, ⟨pad emptyMessage ++ [0x64], by decide⟩, [0x64], rfl⟩

theorem witness_StepKeepsCounters :
    (∃ s t, Safety.CountersAgree s ∧ s.phase = .active ∧ step s = .next t) ∧
    (∃ s t, Safety.CountersAgree s ∧ s.phase = .done ∧ step s = .next t) :=
  ⟨⟨{ demo .active 63 0xFFFFFFFFFFFFFFF8 with host := [.cmd 0x02000061] }, _, by decide, rfl, rfl⟩,
   ⟨{ abcDone with host := [.cmd 0x01000000] }, _, by decide, rfl, rfl⟩⟩

/-- A state in each phase that stands for a message, with a step. -/
theorem witness_StepKeepsSessionMeaning :
    (∃ s t, s.phase = .idle ∧ Safety.SessionStandsForMessage s ∧ step s = .next t) ∧
    (∃ s t, s.phase = .active ∧ Safety.SessionStandsForMessage s ∧ step s = .next t) ∧
    (∃ s t, s.phase = .done ∧ Safety.SessionStandsForMessage s ∧ step s = .next t) :=
  ⟨⟨State.reset, _, rfl, rfl, rfl⟩,
   ⟨demo .active 0 0, _, rfl, ⟨[], by decide, rfl, rfl, rfl, fun _ h => absurd h (Nat.not_lt_zero _)⟩, rfl⟩,
   ⟨{ demo .done 0 0 with h := hashState emptyMessage }, _, rfl, ⟨emptyMessage, rfl, rfl, rfl⟩, rfl⟩⟩

/-- Two states that differ in everything the host cannot see. -/
theorem witness_NothingHiddenIsObservable : Safety.SameToHost State.reset (State.afterReset 5 []) :=
  ⟨rfl, rfl, rfl, rfl, fun h => absurd rfl h, fun h => by cases h⟩

end Sys2Proof.Tests
end

section
/-! PROOF. The transitions of `PHASE` (10_state.md R33), from what a command answers when it is accepted and when it is rejected. -/

namespace Sys2Proof.Machine

/-- R57: a status other than OK is no acceptance. -/
theorem not_accepted_of_reject {s : State} {e : Status} (he : e ≠ .ok) :
    ¬ Safety.Accepted { s with resp := some { status := e, rdata := 0 } } := fun h => he (Option.some.inj h)

/-- R57: an OK response is an acceptance, whatever data it carries. -/
theorem accepted_of_ok (s : State) (v : Word) :
    Safety.Accepted { s with resp := some { status := .ok, rdata := v } } := rfl

/-- R61: an accepted command was permitted in the phase it met, and left its own effect under an OK response. -/
theorem exec_of_accepted {i : Instr} {s t : State} (h : exec i s = .next t) (ha : Safety.Accepted t) :
    permitted i s.phase = true ∧
      t = { acceptedState s i with resp := some { status := .ok, rdata := readValue s i } } := by
  obtain ⟨e, he, rfl⟩ | ⟨-, hp, -, ht⟩ := exec_cases h
  · exact absurd ha (not_accepted_of_reject he)
  · exact ⟨hp, ht⟩

/-- R141: a rejected command writes the response alone. -/
theorem exec_of_not_accepted {i : Instr} {s t : State} (h : exec i s = .next t) (ha : ¬ Safety.Accepted t) :
    t = { s with resp := t.resp } := by
  obtain ⟨e, -, rfl⟩ | ⟨-, -, -, rfl⟩ := exec_cases h
  · rfl
  · exact absurd (accepted_of_ok _ _) ha

/-- R141, R62: a rejected word, assigned or not, writes the response alone. -/
theorem execWord_of_not_accepted {w : Word} {s t : State} (h : execWord w s = .next t) (ha : ¬ Safety.Accepted t) :
    t = { s with resp := t.resp } := by
  unfold execWord at h
  split at h
  · exact exec_of_not_accepted h ha
  · rw [reject_eq] at h
    cases h
    rfl

/-- R124: a read command has no effect of its own on the state. -/
theorem acceptedState_of_isRead {i : Instr} (hi : Safety.isRead i = true) (s : State) : acceptedState s i = s := by
  cases i with
  | init | putb | final => cases hi
  | rds | rdl | rdh | rdb | rdx | rdk => rfl

/-- R124: a read command, accepted or not, writes the response alone. -/
theorem exec_of_isRead {i : Instr} {s t : State} (hi : Safety.isRead i = true) (h : exec i s = .next t) :
    t = { s with resp := t.resp } := by
  by_cases ha : Safety.Accepted t
  · obtain ⟨-, rfl⟩ := exec_of_accepted h ha
    rw [acceptedState_of_isRead hi]
  · exact exec_of_not_accepted h ha

/-- Settles O20: rst and the three session commands by the effect each has when taken or accepted; a read command and a
rejected word because they write the response alone. -/
theorem phaseLifecycle : Obligations.PhaseLifecycle := by
  refine ⟨fun s t h => ?rst, fun s t arg h ha => ?init, fun s t arg h ha => ?putb, fun s t arg h ha => ?final,
    fun i s t hi h => ?read, fun w s t h ha => ?rejected⟩
  case rst =>
    cases h
    exact resetRequest_phase s
  case init =>
    obtain ⟨-, rfl⟩ := exec_of_accepted h ha
    exact ⟨openSession_phase s, openSession_h s, openSession_n s, openSession_len s⟩
  case putb =>
    obtain ⟨hp, rfl⟩ := exec_of_accepted h ha
    have hs : s.phase = .active := (permitted_putb arg s.phase).mp hp
    exact ⟨hs, (absorbByte_phase (arg.setWidth 8) s).trans hs⟩
  case final =>
    obtain ⟨hp, rfl⟩ := exec_of_accepted h ha
    exact ⟨(permitted_final arg s.phase).mp hp, finishSession_phase s⟩
  case read => rw [exec_of_isRead hi h]
  case rejected => rw [execWord_of_not_accepted h ha]

end Sys2Proof.Machine
end

section
/-! PROOF. Byte order (20_memory.md R36, R38): a block word and a digest word as four bytes, the most significant first. -/

namespace Sys2Proof.Machine

/-- R36: concatenation as a number, the left operand the more significant. -/
theorem toNat_append_eq_mul_add {m n : Nat} (x : BitVec m) (y : BitVec n) :
    (x ++ y).toNat = x.toNat * 2 ^ n + y.toNat := by
  rw [BitVec.toNat_append, ← Nat.shiftLeft_add_eq_or_of_lt y.isLt, Nat.shiftLeft_eq]

/-- R36: the number that four bytes denote, the first the most significant. -/
theorem toNat_append_four_bytes (a b c d : Byte) :
    (a ++ b ++ c ++ d).toNat = a.toNat * 2 ^ 24 + b.toNat * 2 ^ 16 + c.toNat * 2 ^ 8 + d.toNat := by
  simp only [toNat_append_eq_mul_add]
  omega

/-- Settles O41: `bufWord` is the concatenation by definition, and its value that of its four bytes. -/
theorem blockWordsAreBigEndian : Obligations.BlockWordsAreBigEndian :=
  fun _ _ => ⟨rfl, toNat_append_four_bytes _ _ _ _⟩

/-- R38: a word is its four byte slices, the most significant first. -/
theorem word_eq_append_bytes (w : Word) :
    w = w.extractLsb' 24 8 ++ w.extractLsb' 16 8 ++ w.extractLsb' 8 8 ++ w.extractLsb' 0 8 := by
  rw [BitVec.extractLsb'_append_extractLsb'_eq_extractLsb' (show 24 = 16 + 8 from rfl),
    BitVec.extractLsb'_append_extractLsb'_eq_extractLsb' (show 16 = 8 + 8 from rfl),
    BitVec.extractLsb'_append_extractLsb'_eq_extractLsb' (show 8 = 0 + 8 from rfl)]
  exact BitVec.extractLsb'_eq_self.symm

/-- R38: digest byte `4i + k` is byte `k` of state word `i`, counted from the most significant. -/
theorem digestByte_four_mul_add (H : HashState) (i : Fin 8) (k : Nat) (hk : k < 4) :
    digestByte H (BitVec.ofNat 5 (4 * i.val + k)) = H[i].extractLsb' (24 - 8 * k) 8 := by
  have hidx : (BitVec.ofNat 5 (4 * i.val + k)).toNat = 4 * i.val + k := Nat.mod_eq_of_lt (by omega)
  have hword : (4 * i.val + k) / 4 = i.val := by omega
  have hbyte : (4 * i.val + k) % 4 = k := by omega
  simp only [digestByte, hidx, hword, hbyte, Fin.getElem_fin]

/-- R38: digest byte `i` as a number, the slice of its state word. -/
theorem digestByte_toNat (H : HashState) (i : Fin 32) :
    (digestByte H (BitVec.ofNat 5 i.val)).toNat = H[i.val / 4].toNat / 2 ^ (24 - 8 * (i.val % 4)) % 256 := by
  have hidx : (BitVec.ofNat 5 i.val).toNat = i.val := Nat.mod_eq_of_lt i.isLt
  simp only [digestByte, hidx, BitVec.extractLsb'_toNat, Nat.shiftRight_eq_div_pow]

/-- Settles O42: each digest byte is the slice of R38, and the four slices of a state word make it up. -/
theorem digestIsBigEndianConcatenation : Obligations.DigestIsBigEndianConcatenation := by
  refine ⟨digestByte_toNat, fun H i => ?concatenation⟩
  case concatenation =>
    have hfirst : digestByte H (BitVec.ofNat 5 (4 * i.val)) = H[i].extractLsb' 24 8 :=
      digestByte_four_mul_add H i 0 (by decide)
    rw [hfirst, digestByte_four_mul_add H i 1 (by decide), digestByte_four_mul_add H i 2 (by decide),
      digestByte_four_mul_add H i 3 (by decide)]
    exact word_eq_append_bytes H[i]

end Sys2Proof.Machine
end

section
/-! PROOF. The status of every response (30_encoding.md R59 to R62, 60_exceptions.md R140): the two fields of the word select the
command, and its tests follow in their fixed order. -/

namespace Sys2Proof.Machine

/-- R54: `op = cmd[31:24]` as a number. -/
theorem opField_toNat (w : Word) : (opField w).toNat = w.toNat / 2 ^ 24 := by
  have hlt : w.toNat / 2 ^ 24 < 2 ^ 8 := by omega
  rw [opField, BitVec.extractLsb'_toNat, Nat.shiftRight_eq_div_pow, Nat.mod_eq_of_lt hlt]

/-- R54: `arg = cmd[23:0]` as a number. -/
theorem argField_toNat (w : Word) : (argField w).toNat = w.toNat % 2 ^ 24 := by
  rw [argField, BitVec.extractLsb'_toNat, Nat.shiftRight_zero]

/-- R56: the nine assigned values of `op`. -/
def assignedOps : List Nat := [1, 2, 3, 0x10, 0x11, 0x12, 0x13, 0x14, 0x15]

theorem op_mem_assignedOps (i : Instr) : i.op.toNat ∈ assignedOps := by
  cases i <;> simp [Instr.op, assignedOps]

/-- Everything the decoder can answer: the command of the word's two fields, or that `op` is none of the assigned values. -/
theorem decode_cases (w : Word) :
    (∃ i, decode w = .ok i ∧ w.toNat / 2 ^ 24 = i.op.toNat ∧ w.toNat % 2 ^ 24 = i.arg.toNat) ∨
    (decode w = .error (.unassignedOp (opField w)) ∧ w.toNat / 2 ^ 24 ∉ assignedOps) := by
  rw [← opField_toNat, ← argField_toNat]
  unfold decode
  split
  case h_10 =>
    refine .inr ⟨rfl, ?_⟩
    simp only [assignedOps, List.mem_cons, List.not_mem_nil, or_false, not_or]
    exact ⟨‹_›, ‹_›, ‹_›, ‹_›, ‹_›, ‹_›, ‹_›, ‹_›, ‹_›⟩
  all_goals exact .inl ⟨_, rfl, ‹_›, rfl⟩

/-- R61: a word that decodes is executed as its command. -/
theorem execWord_of_decode_ok {w : Word} {i : Instr} (h : decode w = .ok i) (s : State) : execWord w s = exec i s := by
  simp only [execWord, h]

/-- R62: a word with a reserved `op` is rejected and writes the response alone. -/
theorem execWord_of_reserved {w : Word} (hw : w.toNat / 2 ^ 24 ∉ assignedOps) (s : State) :
    execWord w s = .next { s with resp := some { status := .illegal, rdata := 0 } } := by
  obtain ⟨i, -, hop, -⟩ | ⟨hd, -⟩ := decode_cases w
  · exact absurd (hop ▸ op_mem_assignedOps i) hw
  · simp only [execWord, hd, reject_eq]

/-- Settles O4: the reserved values are counted by evaluation, and a word with one of them, the all-zero and the all-ones word
among them, is no command. -/
theorem reservedOpIsRejected : Obligations.ReservedOpIsRejected := by
  refine ⟨?count, fun _ s hw => execWord_of_reserved hw s, fun s => ⟨?zeros, ?ones⟩⟩
  case count => decide +kernel
  case zeros => exact execWord_of_reserved (by decide) s
  case ones => exact execWord_of_reserved (by decide) s

/-- R61: the status a command answers with, from the model's own tests in their order. -/
def commandStatus (i : Instr) (s : State) : Status :=
  if i.argBound < i.arg.toNat then argError i
  else if permitted i s.phase then
    if i.op = 0x02 ∧ lengthExceeded s then .length else .ok
  else .seq

/-- R61, R141: every command answers its `commandStatus`, and one that does not answer OK writes the response alone. -/
theorem exec_answers (i : Instr) (s : State) :
    ∃ t r, exec i s = .next t ∧ t.resp = some r ∧
      (r.status ≠ .ok → t = { s with resp := some { status := r.status, rdata := 0 } }) ∧ r.status = commandStatus i s := by
  rw [exec_eq_checked]
  unfold checked ownPart commandStatus
  split_ifs with habove hpermitted hlong
  · exact ⟨_, _, rfl, rfl, fun _ => rfl, rfl⟩
  · exact ⟨_, _, rfl, rfl, fun _ => rfl, rfl⟩
  · exact ⟨_, _, rfl, rfl, fun hne => absurd rfl hne, rfl⟩
  · exact ⟨_, _, rfl, rfl, fun _ => rfl, rfl⟩

/-- R59: which commands answer E_VALUE to an operand beyond the bound. -/
theorem argError_eq (i : Instr) : argError i = if i.op.toNat = 0x02 then .value else .illegal := by
  cases i <;> rfl

/-- R60: the entries of the phase table that answer E_SEQ. -/
theorem permitted_eq_false_iff (i : Instr) (p : Phase) :
    permitted i p = false ↔
      p = .idle ∧ i.op.toNat ∈ [0x02, 0x03, 0x11, 0x12, 0x13, 0x14] ∨
      p = .active ∧ i.op.toNat ∈ [0x13, 0x14] ∨
      p = .done ∧ i.op.toNat ∈ [0x02, 0x03] := by
  cases i with
  | init | rds | rdk => simp [Instr.op]
  | putb | final | rdl | rdh | rdb | rdx => cases p <;> simp [Instr.op, permitted]

/-- R59, R60, R140: `commandStatus` by the number of the operation code alone, with the phase table written out. -/
theorem commandStatus_eq (i : Instr) (s : State) :
    commandStatus i s =
      if i.argBound < i.arg.toNat then (if i.op.toNat = 0x02 then .value else .illegal)
      else if s.phase = .idle ∧ i.op.toNat ∈ [0x02, 0x03, 0x11, 0x12, 0x13, 0x14] then .seq
      else if s.phase = .active ∧ i.op.toNat ∈ [0x13, 0x14] then .seq
      else if s.phase = .done ∧ i.op.toNat ∈ [0x02, 0x03] then .seq
      else if i.op.toNat = 0x02 ∧ 2 ^ 64 - 1 < s.len.toNat + 8 then .length
      else .ok := by
  have hop : i.op = 0x02 ↔ i.op.toNat = 0x02 := BitVec.toNat_inj.symm
  have htable := permitted_eq_false_iff i s.phase
  simp only [commandStatus, argError_eq, hop, lengthExceeded_eq_true]
  refine if_congr Iff.rfl rfl ?_
  cases hp : permitted i s.phase with
  | false =>
    obtain h | h | h := htable.mp hp <;> simp [h]
  | true =>
    simp only [hp, Bool.true_eq_false, false_iff, not_or] at htable
    obtain ⟨hidle, hactive, hdone⟩ := htable
    rw [if_pos rfl, if_neg hidle, if_neg hactive, if_neg hdone]

/-- R59: "The bounds, as numbers", each under the `op` of its command (R56). -/
def opBounds : List (Nat × Nat) :=
  [(0x01, 0), (0x02, 255), (0x03, 0), (0x10, 0), (0x11, 1), (0x12, 7), (0x13, 31), (0x14, 63), (0x15, 63)]

theorem lookup_opBounds_op (i : Instr) : opBounds.lookup i.op.toNat = some i.argBound := by
  cases i <;> rfl

theorem lookup_opBounds_of_reserved {op : Nat} (h : op ∉ assignedOps) : opBounds.lookup op = none := by
  have hkeys : opBounds.map Prod.fst = assignedOps := rfl
  refine List.lookup_eq_none_iff.mpr fun p hp => bne_iff_ne.mpr ?_
  rintro rfl
  exact h (hkeys ▸ List.mem_map_of_mem hp)

/-- Settles O5: a reserved `op` has no bound in the table and answers E_ILLEGAL; an assigned one is that of a command, which
answers its `commandStatus`. -/
theorem checksInFixedOrder : Obligations.ChecksInFixedOrder := by
  intro w s
  obtain ⟨i, hd, hop, harg⟩ | ⟨-, hw⟩ := decode_cases w
  · obtain ⟨t, r, ht, hresp, hreject, hstatus⟩ := exec_answers i s
    refine ⟨t, r, (execWord_of_decode_ok hd s).trans ht, hresp, hreject, hstatus.trans ?_⟩
    have hbound := lookup_opBounds_op i
    unfold opBounds at hbound
    simp only [hop, harg, hbound]
    exact commandStatus_eq i s
  · refine ⟨_, _, execWord_of_reserved hw s, rfl, fun _ => rfl, ?_⟩
    have hbound := lookup_opBounds_of_reserved hw
    unfold opBounds at hbound
    simp only [hbound]

end Sys2Proof.Machine
end

section
/-! PROOF. The word arithmetic units (40_word_arithmetic.md R67, R71 to R76): the ADDER, the SHIFTER and the bitwise logic,
each as the number or the bits it answers. -/

namespace Sys2Proof.Machine

/-- R71: the rotate is the library's, whose formula stands at an amount of 0 too. -/
theorem rotr32_eq_rotateRight (x : Word) (n : BitVec 5) : rotr32 x n = x.rotateRight n.toNat := by
  have hn : n.toNat % 32 = n.toNat := Nat.mod_eq_of_lt n.isLt
  rw [BitVec.rotateRight_def, hn]
  by_cases h0 : n = 0
  · subst h0
    simp [rotr32]
  · rw [rotr32, if_neg h0]

theorem rotr32_zero (x : Word) : rotr32 x 0 = x := if_pos rfl

/-- R71: "Bit `i` of the result is bit `(i + n) mod 32` of `x`"; below `32 - n` the sum does not wrap, from there on it
wraps once. -/
theorem getLsbD_rotr32 (x : Word) (n : BitVec 5) {i : Nat} (hi : i < 32) :
    (rotr32 x n).getLsbD i = x.getLsbD ((i + n.toNat) % 32) := by
  have hn : n.toNat < 32 := n.isLt
  rw [rotr32_eq_rotateRight, BitVec.getLsbD_rotateRight_of_lt hn]
  by_cases hlow : i < 32 - n.toNat
  · have hidx : (i + n.toNat) % 32 = n.toNat + i := by omega
    simp [hlow, hidx]
  · have hidx : (i + n.toNat) % 32 = i - (32 - n.toNat) := by omega
    simp [hlow, hi, hidx]

/-- R71: the formula of the rotate on unbounded numbers; the right shift alone is below `2 ^ 32`. -/
theorem toNat_rotr32 (x : Word) {n : BitVec 5} (hn : 1 ≤ n.toNat) :
    (rotr32 x n).toNat = ((x.toNat >>> n.toNat) ||| (x.toNat <<< (32 - n.toNat))) % 2 ^ 32 := by
  have h0 : n ≠ 0 := by
    rintro rfl
    exact absurd hn (by decide)
  have hshr : x.toNat >>> n.toNat < 2 ^ 32 := Nat.lt_of_le_of_lt (Nat.shiftRight_le ..) x.isLt
  rw [rotr32, if_neg h0, BitVec.toNat_or, BitVec.toNat_ushiftRight, BitVec.toNat_shiftLeft, Nat.or_mod_two_pow,
    Nat.mod_eq_of_lt hshr]

/-- R71: a word whose bits are all alike is kept by every rotate. -/
theorem rotr32_eq_self_of_bits_alike {x : Word} {b : Bool} (h : ∀ i < 32, x.getLsbD i = b) (n : BitVec 5) :
    rotr32 x n = x := by
  refine BitVec.eq_of_getLsbD_eq fun i hi => ?_
  rw [getLsbD_rotr32 x n hi, h _ (Nat.mod_lt _ (by decide)), h i hi]

/-- Settles O34, from the rotate's bits, its number, and the words it keeps: 0 and 0xFFFFFFFF have all their bits alike. -/
theorem rotateMovesBits : Obligations.RotateMovesBits := by
  have hzero : ∀ i < 32, (0 : Word).getLsbD i = false := by decide
  have hones : ∀ i < 32, (0xFFFFFFFF : Word).getLsbD i = true := by decide
  exact ⟨fun x n _ hi => getLsbD_rotr32 x n hi, fun x _ hn => toNat_rotr32 x hn, rotr32_zero, by decide, by decide,
    fun n => ⟨rotr32_eq_self_of_bits_alike hzero n, rotr32_eq_self_of_bits_alike hones n⟩, by decide⟩

/-- R67: `ADD32(a, b) = (a + b) mod 2^32`. -/
theorem toNat_add32 (x y : Word) : (add32 x y).toNat = (x.toNat + y.toNat) % 2 ^ 32 := BitVec.toNat_add x y

theorem add32_zero (x : Word) : add32 x 0 = x := BitVec.add_zero x

/-- Settles O32, from the sum as a number and its identity 0; the other corner cases are computed. -/
theorem adderWraps : Obligations.AdderWraps :=
  ⟨toNat_add32, by decide, by decide, by decide, add32_zero, by decide⟩

/-- R72: `SHR32(x, n) = floor(x / 2^n)`. -/
theorem toNat_shr32 (x : Word) (n : BitVec 5) : (shr32 x n).toNat = x.toNat / 2 ^ n.toNat := by
  rw [shr32, BitVec.toNat_ushiftRight, Nat.shiftRight_eq_div_pow]

theorem shr32_zero (x : Word) : shr32 x 0 = x := BitVec.ushiftRight_zero x

/-- R73: rotate mode is R71. -/
theorem barrelShifter_rotate (x : Word) (n : BitVec 5) : barrelShifter .rotate x n = rotr32 x n := rfl

/-- R73: shift mode is R72. -/
theorem barrelShifter_shift (x : Word) (n : BitVec 5) : barrelShifter .shift x n = shr32 x n := rfl

/-- Settles O35, from the shift as a quotient and the shifter's output in each mode; the corner cases are computed. -/
theorem shiftDividesAndShifterHasTwoModes : Obligations.ShiftDividesAndShifterHasTwoModes :=
  ⟨toNat_shr32, shr32_zero, by decide, by decide, by decide, by decide,
    fun x n => ⟨barrelShifter_rotate x n, barrelShifter_shift x n⟩⟩

/-- R74: AND32 acts on each bit alone. -/
theorem getLsbD_and32 (x y : Word) (i : Nat) : (and32 x y).getLsbD i = (x.getLsbD i && y.getLsbD i) :=
  BitVec.getLsbD_and

/-- R75: XOR32 is 1 where the operands' bits differ. -/
theorem getLsbD_xor32 (x y : Word) (i : Nat) : (xor32 x y).getLsbD i = (x.getLsbD i != y.getLsbD i) :=
  BitVec.getLsbD_xor

/-- R76: NOT32 complements each of the 32 bits, and "the complement never extends beyond bit 31". -/
theorem getLsbD_not32 (x : Word) {i : Nat} (hi : i < 32) : (not32 x).getLsbD i = !x.getLsbD i := by
  rw [not32, BitVec.getLsbD_not, decide_eq_true hi, Bool.true_and]

/-- R76: `not x = 0xFFFFFFFF − x` as a number. -/
theorem toNat_not32 (x : Word) : (not32 x).toNat = 0xFFFFFFFF - x.toNat := BitVec.toNat_not

/-- Settles O36, from each unit's bits and the number of the complement; the examples are computed. -/
theorem bitwiseUnits : Obligations.BitwiseUnits :=
  ⟨fun x y i hi => ⟨getLsbD_and32 x y i, getLsbD_xor32 x y i, getLsbD_not32 x hi⟩, toNat_not32,
    by decide, by decide, by decide⟩

end Sys2Proof.Machine
end

section
/-! PROOF. The constant ROM as RDK reads it (41_constants.md R84, R85), from what a read command answers when its operand is
rejected and when it passes both tests. -/

namespace Sys2Proof.Machine

/-- R59: an operand beyond the bound is rejected in every phase. -/
theorem exec_of_arg_above {i : Instr} (h : i.argBound < i.arg.toNat) (s : State) :
    exec i s = .next { s with resp := some { status := argError i, rdata := 0 } } := by
  rw [exec_eq_checked, checked_of_arg_above h, reject_eq]

/-- R124: the own part of a read command answers its value on the state as it stands; the length test is PUTB's alone. -/
theorem ownPart_of_isRead {i : Instr} (hi : Safety.isRead i = true) (s : State) :
    ownPart i s = respond (readValue s i) s := by
  have hop : i.op ≠ 0x02 := by
    cases i with
    | init | putb | final => cases hi
    | rds | rdl | rdh | rdb | rdx | rdk => simp [Instr.op]
  rw [ownPart, if_neg fun h => hop h.1, acceptedState_of_isRead hi]

/-- R61: a read command that passes the tests on its operand and the phase answers OK with its value. -/
theorem exec_read_of_permitted {i : Instr} {s : State} (hi : Safety.isRead i = true) (h : i.arg.toNat ≤ i.argBound)
    (hp : permitted i s.phase = true) : exec i s = .next { s with resp := some (okResponse (readValue s i)) } := by
  rw [exec_eq_checked, checked_of_permitted h hp, ownPart_of_isRead hi, respond_eq, okResponse]

/-- R34: an operand within the bound of RDK loses no bit as the 6-bit address of the ROM. -/
theorem krom_setWidth (arg : Arg) (h : arg.toNat < 64) : krom (arg.setWidth 6) = kRom[arg.toNat] := by
  have haddr : (arg.setWidth 6).toNat = arg.toNat := by
    rw [BitVec.toNat_setWidth, Nat.mod_eq_of_lt h]
  simp only [krom, haddr]

/-- Settles O28: beyond 63 the operand is rejected; up to 63 RDK, which every phase permits, answers the ROM at its operand. -/
theorem rdkReturnsRoundConstant : Obligations.RdkReturnsRoundConstant := by
  refine fun s arg => ⟨fun habove => exec_of_arg_above (i := .rdk arg) habove s, fun hi => ?within⟩
  case within =>
    have hbound : (Instr.rdk arg).arg.toNat ≤ (Instr.rdk arg).argBound := Nat.le_of_lt_succ hi
    rw [exec_read_of_permitted rfl hbound (permitted_rdk arg s.phase), readValue, krom_setWidth arg hi]

end Sys2Proof.Machine
end

section
/-! PROOF. The compression as the units run it (43_schedule.md R99 to R101, 44_compression.md R107 to R111): each step of the
sequencer advances an invariant of the transients, and the last one leaves `Compress`. -/

namespace Sys2Proof.Machine

/-- R99: the first 16 words of the schedule are those of the block. -/
theorem expand_get_of_lt (B : Block) (i : Nat) (h : i < 16) : (expand B)[i] = bufWord B ⟨i, h⟩ := by
  rw [expand_get B 0 i (by omega) h (by omega), scheduleWords, List.getD_eq_getElem _ _ (by simpa using h), List.getElem_ofFn]

/-- R100: the recurrence, between words of the finished schedule. -/
theorem expand_get_of_ge (B : Block) (j : Nat) (hlo : 16 ≤ j) (h : j < 64) :
    (expand B)[j] = scheduleSum (expand B)[j - 2] (expand B)[j - 7] (expand B)[j - 15] (expand B)[j - 16] := by
  obtain ⟨n, rfl⟩ := Nat.exists_eq_add_of_le hlo
  have hprefix (i : Nat) (hi : i < 16 + n) : (expand B)[i] = (scheduleWords B n).getD i 0 :=
    expand_get B n i (by omega) hi (by omega)
  have hlen : (scheduleWords B n).length ≤ 16 + n := (scheduleWords_length B n).le
  rw [expand_get B (n + 1) (16 + n) (by omega) (by omega) h, scheduleWords, List.getD_append_right _ _ _ _ hlen,
    scheduleWords_length, Nat.sub_self, List.getD_cons_zero, hprefix (16 + n - 2) (by omega), hprefix (16 + n - 7) (by omega),
    hprefix (16 + n - 15) (by omega), hprefix (16 + n - 16) (by omega)]

/-- R99, R100: the sequencer stands at `j = m`, and the first `m` words of the schedule are in place. -/
def Scheduled (B : Block) (m : Nat) (k : Work) : Prop :=
  k.j.toNat = m ∧ ∀ i (_ : i < 64), i < m → k.w[i] = (expand B)[i]

theorem scheduled_loadSchedule (B : Block) (k : Work) : Scheduled B 16 (loadSchedule B k) :=
  ⟨loadSchedule_j B k, fun i _ hi => (loadSchedule_w B k i hi).trans (expand_get_of_lt B i hi).symm⟩

/-- R100: the step at `j` writes word `j` of the schedule, from words that are in place. -/
theorem scheduled_expandStep {B : Block} {m : Nat} {k : Work} (hk : Scheduled B m k) (hlo : 16 ≤ m) (hhi : m < 64) :
    Scheduled B (m + 1) (expandStep k) := by
  obtain ⟨rfl, hw⟩ := hk
  obtain ⟨hj, -, hget⟩ := expandStep_spec k ⟨hlo, hhi⟩
  refine ⟨hj, fun i hi him => ?_⟩
  rw [hget i hi]
  split_ifs with hij
  · subst hij
    rw [expand_get_of_ge B _ hlo hhi, hw _ _ (by omega), hw _ _ (by omega), hw _ _ (by omega), hw _ _ (by omega)]
  · exact hw i hi (by omega)

theorem scheduled_repeatStep (B : Block) (k : Work) (n : Nat) (hn : n ≤ 48) :
    Scheduled B (16 + n) (repeatStep expandStep n (loadSchedule B k)) := by
  induction n with
  | zero => exact scheduled_loadSchedule B k
  | succ n ih =>
    rw [repeatStep_succ]
    exact scheduled_expandStep (m := 16 + n) (ih (by omega)) (by omega) (by omega)

/-- R101: the EXPANDER leaves `Expand(B)` in `W`, whatever the transients held before. -/
theorem runExpander_w (B : Block) (k : Work) : (runExpander B k).w = expand B := by
  obtain ⟨-, hw⟩ := scheduled_repeatStep B k 48 le_rfl
  exact Vector.ext fun i hi => hw i hi hi

/-- R108, R109: the round, its assignments made in the order written, is the simultaneous update. -/
theorem mixRound_of_lt (k : Work) (hj : k.j.toNat < 64) :
    mixRound k =
      { w := k.w, regs := roundOf kRom[k.j.toNat] k.w[k.j.toNat] k.regs, t1 := tempOne kRom[k.j.toNat] k.w[k.j.toNat] k.regs
        t2 := tempTwo k.regs, j := k.j + 1 } := by
  rw [mixRound, dif_pos hj]
  rfl

/-- R108: the sequencer stands at `j = n`, the schedule is `W`, and the registers have gone through rounds `0 .. n-1`. -/
def Mixed (S : HashState) (W : Schedule) (n : Nat) (k : Work) : Prop :=
  k.j.toNat = n ∧ k.w = W ∧ k.regs = roundsOf S W n

theorem mixed_loadMixer (S : HashState) (k : Work) : Mixed S k.w 0 (loadMixer S k) := ⟨rfl, rfl, rfl⟩

theorem mixed_mixRound {S : HashState} {W : Schedule} {n : Nat} {k : Work} (hk : Mixed S W n k) (hn : n < 64) :
    Mixed S W (n + 1) (mixRound k) := by
  obtain ⟨rfl, rfl, hregs⟩ := hk
  rw [mixRound_of_lt k hn]
  refine ⟨?j, rfl, ?regs⟩
  case j =>
    show (k.j + 1).toNat = k.j.toNat + 1
    rw [BitVec.toNat_add]
    exact Nat.mod_eq_of_lt (show k.j.toNat + 1 < 2 ^ 7 by omega)
  case regs =>
    show roundOf kRom[k.j.toNat] k.w[k.j.toNat] k.regs = roundOf _ _ _
    have hword : k.w.toList.getD k.j.toNat 0 = k.w[k.j.toNat] := by
      rw [List.getD_eq_getElem _ _ (by simpa using hn), Vector.getElem_toList]
    rw [kRom_get _ hn, hword, hregs]

/-- R108, R111: the MIXER's run ends with `W` as expanded, the registers after 64 rounds, and the sequencer at 64. -/
theorem mixed_runMixer (S : HashState) (B : Block) (k : Work) : Mixed S (expand B) 64 (runMixer S B k) := by
  have hrounds (n : Nat) (hn : n ≤ 64) : Mixed S (expand B) n (repeatStep mixRound n (loadMixer S (runExpander B k))) := by
    induction n with
    | zero => exact runExpander_w B k ▸ mixed_loadMixer S (runExpander B k)
    | succ n ih =>
      rw [repeatStep_succ]
      exact mixed_mixRound (ih (by omega)) (by omega)
  exact hrounds 64 le_rfl

/-- R111: `H <- Compress(H, BUF)`, as the units compute it. -/
@[simp] theorem compressBlock_h (s : State) : (compressBlock s).h = compress s.h s.buf := by
  obtain ⟨-, -, hregs⟩ := mixed_runMixer s.h s.buf s.work
  simp only [compressBlock, hregs, compress]

end Sys2Proof.Machine
end

section
/-! PROOF. The session commands (42_padder.md R90 to R94): what a command answers at each of its tests, and what an accepted one
writes. -/

namespace Sys2Proof.Machine

/-- R60: a command within its bound that the phase does not permit is rejected with E_SEQ. -/
theorem exec_of_not_permitted {i : Instr} {s : State} (h : i.arg.toNat ≤ i.argBound) (hp : ¬ permitted i s.phase = true) :
    exec i s = .next { s with resp := some { status := .seq, rdata := 0 } } := by
  rw [exec_eq_checked, checked_of_not_permitted h (Bool.eq_false_iff.mpr hp), reject_eq]

/-- R61 test 5: a command that passes every test answers OK on the state it leaves. -/
theorem exec_of_tests_passed {i : Instr} {s : State} (h : i.arg.toNat ≤ i.argBound) (hp : permitted i s.phase = true)
    (hl : i.op = 0x02 → s.len.toNat + 8 ≤ 2 ^ 64 - 1) :
    exec i s = .next { acceptedState s i with resp := some (okResponse (readValue s i)) } := by
  have hlength : ¬ (i.op = 0x02 ∧ lengthExceeded s = true) := fun ⟨hop, hlong⟩ =>
    absurd (lengthExceeded_eq_true.mp hlong) (Nat.not_lt.mpr (hl hop))
  rw [exec_eq_checked, checked_of_permitted h hp, ownPart, if_neg hlength, respond_eq, okResponse]

/-- R59: an operand other than 0 is beyond a bound of 0. -/
theorem zero_lt_toNat_of_ne_zero {arg : Arg} (h : arg ≠ 0) : 0 < arg.toNat :=
  Nat.pos_of_ne_zero fun hz => h (BitVec.eq_of_toNat_eq hz)

/-- Settles O14: every phase permits INIT, whose effect is `openSession`; an operand other than 0 is beyond its bound. -/
theorem initOpensSession : Obligations.InitOpensSession := by
  refine ⟨fun s => ?opens, fun s arg harg => ?rejected⟩
  case opens =>
    have hexec := exec_of_tests_passed (i := .init 0) (Nat.le_refl 0) (permitted_init 0 s.phase)
      (fun hop => absurd hop (by decide))
    exact ⟨_, hexec, openSession_h s, openSession_n s, openSession_len s, openSession_phase s, openSession_work s,
      openSession_host s, rfl⟩
  case rejected => exact exec_of_arg_above (i := .init arg) (zero_lt_toNat_of_ne_zero harg) s

/-- R92: bits above bit 7 make the operand more than 255. -/
theorem toNat_gt_of_high_bits {arg : Arg} (h : arg.extractLsb' 8 16 ≠ 0) : 255 < arg.toNat := by
  by_contra hle
  have hzero : arg.toNat / 2 ^ 8 = 0 := Nat.div_eq_of_lt (by omega)
  refine h (BitVec.eq_of_toNat_eq ?_)
  rw [BitVec.extractLsb'_toNat, Nat.shiftRight_eq_div_pow, hzero]
  rfl

/-- R91: an operand above 255 is beyond the bound of PUTB, in every phase. -/
theorem exec_putb_of_arg_above {arg : Arg} (h : 255 < arg.toNat) (s : State) :
    exec (.putb arg) s = .next { s with resp := some { status := .value, rdata := 0 } } :=
  exec_of_arg_above (i := .putb arg) h s

/-- Settles O16: such an operand is above 255. -/
theorem nonByteIsNotAbsorbed : Obligations.NonByteIsNotAbsorbed :=
  fun s _ harg => exec_putb_of_arg_above (toNat_gt_of_high_bits harg) s

/-- R91, R93: a byte that would take `LEN` past its bound is rejected with E_LENGTH. -/
theorem exec_putb_of_length_exceeded {arg : Arg} {s : State} (h : arg.toNat ≤ 255) (hp : s.phase = .active)
    (hl : 2 ^ 64 - 1 < s.len.toNat + 8) :
    exec (.putb arg) s = .next { s with resp := some { status := .length, rdata := 0 } } := by
  rw [exec_eq_checked, checked_of_permitted (i := .putb arg) h ((permitted_putb arg s.phase).mpr hp), ownPart,
    if_pos ⟨rfl, lengthExceeded_eq_true.mpr hl⟩, reject_eq]

section absorbByte
variable (b : Byte) {s : State}

theorem absorbByte_h_of_ne (h : s.n ≠ 63) : (absorbByte b s).h = s.h := by
  rw [absorbByte_of_ne b s h, forgetResidue_h, storeAtN_h]

theorem absorbByte_work_of_ne (h : s.n ≠ 63) : (absorbByte b s).work = s.work := by
  rw [absorbByte_of_ne b s h, forgetResidue_work, storeAtN_work]

/-- R91: the 64th byte runs one compression of the buffer with the byte in place. -/
theorem absorbByte_h_of_eq (h : s.n = 63) : (absorbByte b s).h = compress s.h (s.buf.set 63 b) := by
  have hidx : s.n.toNat = 63 := congrArg BitVec.toNat h
  simp only [absorbByte_of_eq b s h, forgetResidue_h, compressBlock_h, storeAtN_h, storeAtN_buf, hidx]

end absorbByte

/-- Settles O15: the three rejections are those of the tests in their order; past them the effect is `absorbByte`, whose two
branches are `N = 63` and `N ≠ 63`. -/
theorem putbAbsorbsByte : Obligations.PutbAbsorbsByte := by
  refine fun s arg => ⟨fun habove => exec_putb_of_arg_above habove s, fun hle hphase => ?seq,
    fun hle hactive hlong => exec_putb_of_length_exceeded hle hactive hlong, fun hle hactive hlen => ?absorbed⟩
  case seq => exact exec_of_not_permitted (i := .putb arg) hle (mt (permitted_putb arg s.phase).mp hphase)
  case absorbed =>
    have hexec := exec_of_tests_passed (i := .putb arg) hle ((permitted_putb arg s.phase).mpr hactive) (fun _ => hlen)
    have hn : s.n = 63 ↔ s.n.toNat = 63 := BitVec.toNat_inj.symm
    refine ⟨_, hexec, rfl, absorbByte_len _ s, (absorbByte_phase _ s).trans hactive, absorbByte_host _ s,
      fun hne => ?buffered, fun heq => ?compressed⟩
    case buffered =>
      have hne' : s.n ≠ 63 := fun h => hne (hn.mp h)
      refine ⟨absorbByte_n _ s, ?_, fun i hi => ?_, absorbByte_h_of_ne _ hne', absorbByte_work_of_ne _ hne'⟩
      · exact (absorbByte_buf _ s hne' _ s.n.isLt le_rfl).trans (if_pos rfl)
      · exact (absorbByte_buf _ s hne' i i.isLt hi.le).trans (if_neg hi.ne')
    case compressed =>
      have heq' : s.n = 63 := hn.mpr heq
      exact ⟨(absorbByte_n _ s).trans (by rw [heq']; rfl), absorbByte_h_of_eq _ heq'⟩

/-- R94: byte `i` of the buffer with 0x80 at `N` and zeros above. -/
def paddedByte (s : State) (i : Fin 64) : Byte :=
  if i.val < s.n.toNat then s.buf[i] else if i.val = s.n.toNat then 0x80 else 0

/-- R37, R94: byte `i` of the last block, `i` from 56, as a slice of the number `LEN`. -/
def lengthByte (len : BitVec 64) (i : Fin 64) : Byte := BitVec.ofNat 8 (len.toNat / 2 ^ (8 * (63 - i.val)))

/-- R94: below the end of the zeros, the padder's stores leave `paddedByte`. -/
theorem zeroFill_storeAtN_get (s : State) {hi : Nat} (i : Fin 64) (h : i.val < hi) :
    (zeroFill (s.n.toNat + 1) hi (storeAtN 0x80 s).buf)[i] = paddedByte s i := by
  rw [Fin.getElem_fin, zeroFill_get, storeAtN_buf, Vector.getElem_set, paddedByte, Fin.getElem_fin]
  obtain hlt | heq | hgt := Nat.lt_trichotomy i.val s.n.toNat
  · rw [if_neg (by omega), if_neg (by omega), if_pos hlt]
  · rw [if_neg (by omega), if_pos heq.symm, if_neg (by omega), if_pos heq]
  · rw [if_pos (by omega), if_neg (by omega), if_neg (by omega)]

/-- R94: the last block of FINAL, from what its first 56 bytes are. -/
theorem putLength_eq_ofFn (len : BitVec 64) {B : Block} {f : Fin 64 → Byte} (hB : ∀ i : Fin 64, i.val < 56 → B[i] = f i) :
    putLength len B = Vector.ofFn fun i => if i.val < 56 then f i else lengthByte len i := by
  refine Vector.ext fun i hi => ?_
  rw [putLength_get, Vector.getElem_ofFn]
  by_cases h : i < 56
  · rw [if_neg (by omega), if_pos h]
    exact hB ⟨i, hi⟩ h
  · rw [if_pos (by omega), if_neg h, be64Byte_eq, lengthByte, show 56 - 8 * (i - 56) = 8 * (63 - i) by omega]

/-- R94: the last compression of FINAL works on what the padder leaves. -/
theorem finishSession_h_eq_compress (s : State) :
    (finishSession s).h = compress (padBuffer s).h (putLength s.len (padBuffer s).buf) := by
  rw [finishSession_h, compressBlock_h]

/-- R94, `N ≤ 55`: the length field fits, and the one compression is that of the padded bytes with it. -/
theorem finishSession_h_of_le {s : State} (h : s.n.toNat ≤ 55) :
    (finishSession s).h = compress s.h (Vector.ofFn fun i => if i.val < 56 then paddedByte s i else lengthByte s.len i) := by
  have hbuf (i : Fin 64) (hi : i.val < 56) : (padBuffer s).buf[i] = paddedByte s i := by
    rw [padBuffer_buf_of_le s h, zeroFill_storeAtN_get s i hi]
  rw [finishSession_h_eq_compress, padBuffer_h_of_le s h, putLength_eq_ofFn s.len hbuf]

/-- R94, `56 ≤ N`: the padded bytes fill the first of two blocks, and the second is zeros and the length field. -/
theorem finishSession_h_of_gt {s : State} (h : ¬ s.n.toNat ≤ 55) :
    (finishSession s).h =
      compress (compress s.h (Vector.ofFn (paddedByte s)))
        (Vector.ofFn fun i => if i.val < 56 then 0 else lengthByte s.len i) := by
  have hfirst : zeroFill (s.n.toNat + 1) 64 (storeAtN 0x80 s).buf = Vector.ofFn (paddedByte s) :=
    Vector.ext fun i hi => (zeroFill_storeAtN_get s ⟨i, hi⟩ hi).trans (Vector.getElem_ofFn hi).symm
  have hzeros (i : Fin 64) (hi : i.val < 56) : (padBuffer s).buf[i] = 0 := by
    rw [padBuffer_buf_of_gt s h, Fin.getElem_fin, zeroFill_get, if_pos ⟨Nat.zero_le _, hi⟩]
  rw [finishSession_h_eq_compress, padBuffer_h_of_gt s h, compressBlock_h, storeAtN_h, hfirst, putLength_eq_ofFn s.len hzeros]

/-- Settles O18: the rejections are those of the bound and of the phase; past them the effect is `finishSession`, with one
compression or two as `N` says. -/
theorem finalPadsAndCompresses : Obligations.FinalPadsAndCompresses := by
  refine fun s => ⟨fun arg harg => ?illegal, fun hphase => ?seq, fun hactive => ?finished⟩
  case illegal => exact exec_of_arg_above (i := .final arg) (zero_lt_toNat_of_ne_zero harg) s
  case seq => exact exec_of_not_permitted (i := .final 0) (Nat.le_refl 0) (mt (permitted_final 0 s.phase).mp hphase)
  case finished =>
    have hexec := exec_of_tests_passed (i := .final 0) (Nat.le_refl 0) ((permitted_final 0 s.phase).mpr hactive)
      (fun hop => absurd hop (by decide))
    refine ⟨_, hexec, ?_, finishSession_n s, finishSession_phase s, finishSession_len s, rfl, finishSession_host s⟩
    by_cases hn : s.n.toNat ≤ 55
    · exact (finishSession_h_of_le hn).trans (if_pos hn).symm
    · exact (finishSession_h_of_gt hn).trans (if_neg hn).symm

end Sys2Proof.Machine
end

section
/-! PROOF. `Pad` on messages (42_padder.md R86, R88). -/

namespace Sys2Proof.Machine

/-- R86: "`z = (55 - L) mod 64`", the difference taken in the integers. -/
theorem padZeros_eq_emod (L : Nat) : (padZeros L : Int) = (55 - (L : Int)) % 64 := by
  unfold padZeros
  omega

/-- R86, step 3: `z` zero bytes bring the length to 56 modulo 64. -/
theorem add_padZeros_mod (L : Nat) : (L + 1 + padZeros L) % 64 = 56 := by
  unfold padZeros
  omega

/-- R86, step 3: no smaller number of zero bytes does. -/
theorem add_mod_ne_of_lt_padZeros {L z : Nat} (h : z < padZeros L) : (L + 1 + z) % 64 ≠ 56 := by
  unfold padZeros at h
  omega

theorem length_be64 (v : BitVec 64) : (be64 v).length = 8 := by
  rw [be64, List.length_map, List.length_range]

/-- R86, step 4: the length field of a message is its bit length, which its 64 bits hold. -/
theorem be64_bitLength {L : Nat} (h : L ≤ maxMessageBytes) :
    be64 (BitVec.ofNat 64 (8 * L)) = (List.range 8).map fun k => BitVec.ofNat 8 (8 * L / 2 ^ (8 * (7 - k))) := by
  have hfits : 8 * L < 2 ^ 64 := by
    unfold maxMessageBytes at h
    omega
  refine List.map_congr_left fun k _ => ?_
  rw [be64Byte_eq, BitVec.toNat_ofNat, Nat.mod_eq_of_lt hfits, show 56 - 8 * k = 8 * (7 - k) by omega]

/-- R86: the message, the byte 0x80, the zeros and the 8 bytes of the length field. -/
theorem length_pad (m : Message) : (pad m).length = m.val.length + 1 + padZeros m.val.length + 8 := by
  simp only [pad, padTail, List.length_append, List.length_cons, List.length_nil, List.length_replicate, length_be64]
  omega

theorem length_pad_mod (m : Message) : (pad m).length % 64 = 0 := by
  have hzeros := add_padZeros_mod m.val.length
  rw [length_pad]
  omega

/-- Settles O47: `z` is `padZeros` of the length. -/
theorem padFollowsFourSteps : Obligations.PadFollowsFourSteps := by
  refine fun m => ⟨padZeros m.val.length, ?steps, add_padZeros_mod _, fun z hz => add_mod_ne_of_lt_padZeros hz,
    padZeros_eq_emod _, length_pad_mod m⟩
  case steps =>
    rw [pad, padTail, be64_bitLength m.property]
    simp only [List.append_assoc]

/-- R125: a sequence has one block for every 64 bytes. -/
theorem length_blocksOf (P : List Byte) : (blocksOf P).length = P.length / 64 := by
  rw [blocksOf, List.length_map, List.length_range]

/-- R88: what `Pad` appends to the empty message. -/
theorem padTail_zero : padTail 0 = 0x80 :: List.replicate 63 0 := by decide

/-- Settles O50: `Pad` of the empty message is its tail alone, and 64 bytes are one block. -/
theorem emptyMessageIsPadded : Obligations.EmptyMessageIsPadded := by
  intro m hm
  have hpad : pad m = 0x80 :: List.replicate 63 0 := by
    rw [pad, hm, List.nil_append, List.length_nil, padTail_zero]
  refine ⟨hpad, ?_⟩
  rw [length_blocksOf, hpad, List.length_cons, List.length_replicate]

end Sys2Proof.Machine
end

section
/-! PROOF. The sigma functions (43_schedule.md R97, R98, 44_compression.md R103, R104) bit by bit, and the recurrence of the
schedule (R99, R100). -/

namespace Sys2Proof.Machine

/-- R72: bit `i` of the shifted word is bit `i + n` of the operand; "Zeros enter at the top". -/
theorem getLsbD_shr32 (x : Word) (n : BitVec 5) (i : Nat) :
    (shr32 x n).getLsbD i = (decide (i + n.toNat < 32) && x.getLsbD (i + n.toNat)) := by
  rw [shr32, BitVec.getLsbD_ushiftRight, Nat.add_comm n.toNat i]
  by_cases hin : i + n.toNat < 32
  · simp [hin]
  · simp [hin, BitVec.getLsbD_of_ge x _ (Nat.le_of_not_lt hin)]

/-- The shape the sigma functions share: two rotates of the operand and a third term. -/
theorem getLsbD_xor32_rotr32_rotr32 (x y : Word) (m n : BitVec 5) {i : Nat} (hi : i < 32) :
    (xor32 (xor32 (rotr32 x m) (rotr32 x n)) y).getLsbD i =
      ((x.getLsbD ((i + m.toNat) % 32) != x.getLsbD ((i + n.toNat) % 32)) != y.getLsbD i) := by
  rw [getLsbD_xor32, getLsbD_xor32, getLsbD_rotr32 x m hi, getLsbD_rotr32 x n hi]

/-- A small sigma: the third term is a shift. -/
theorem getLsbD_xor32_rotr32_rotr32_shr32 (x : Word) (m n l : BitVec 5) {i : Nat} (hi : i < 32) :
    (xor32 (xor32 (rotr32 x m) (rotr32 x n)) (shr32 x l)).getLsbD i =
      ((x.getLsbD ((i + m.toNat) % 32) != x.getLsbD ((i + n.toNat) % 32)) !=
        (decide (i + l.toNat < 32) && x.getLsbD (i + l.toNat))) := by
  rw [getLsbD_xor32_rotr32_rotr32 x _ m n hi, getLsbD_shr32]

/-- A big sigma: the third term is a rotate. -/
theorem getLsbD_xor32_rotr32_rotr32_rotr32 (x : Word) (m n l : BitVec 5) {i : Nat} (hi : i < 32) :
    (xor32 (xor32 (rotr32 x m) (rotr32 x n)) (rotr32 x l)).getLsbD i =
      ((x.getLsbD ((i + m.toNat) % 32) != x.getLsbD ((i + n.toNat) % 32)) != x.getLsbD ((i + l.toNat) % 32)) := by
  rw [getLsbD_xor32_rotr32_rotr32 x _ m n hi, getLsbD_rotr32 x l hi]

/-- Settles O37, from the bits of the two shapes at each function's amounts; the corner cases and examples are computed. -/
theorem sigmaFunctions : Obligations.SigmaFunctions :=
  ⟨fun x _ hi =>
    ⟨getLsbD_xor32_rotr32_rotr32_shr32 x 7 18 3 hi, getLsbD_xor32_rotr32_rotr32_shr32 x 17 19 10 hi,
      getLsbD_xor32_rotr32_rotr32_rotr32 x 2 13 22 hi, getLsbD_xor32_rotr32_rotr32_rotr32 x 6 11 25 hi⟩,
    by decide, by decide, by decide, by decide, by decide, by decide, by decide, by decide⟩

/-- R100: the sum in the rule's order of operands. -/
theorem scheduleSum_eq (w2 w7 w15 w16 : Word) :
    scheduleSum w2 w7 w15 w16 = smallSigma1 w2 + w7 + smallSigma0 w15 + w16 := add32s_four ..

/-- Settles O43: below 16 the words of the block, from 16 on the recurrence with its sum written out. -/
theorem scheduleRecurrence : Obligations.ScheduleRecurrence := by
  refine fun B => ⟨fun i => expand_get_of_lt B i.val i.isLt, fun j hlo => ?recurrence⟩
  case recurrence => rw [expand_get_of_ge B j.val hlo j.isLt, scheduleSum_eq]

end Sys2Proof.Machine
end

section
/-! PROOF. The round of the MIXER (44_compression.md R105 to R108, R110): choice and majority by their truth tables, the load, the
round and the fold with their sums written out. -/

namespace Sys2Proof.Machine

/-- R105: the table of `Ch` on one bit. -/
theorem choice_table (p q r : Bool) : ((p && q) != (!p && r)) = if p then q else r := by
  cases p with
  | true => exact Bool.bne_false q
  | false => exact Bool.false_bne r

/-- R106: the table of `Maj` on one bit. -/
theorem majority_table :
    ∀ p q r : Bool, (((p && q) != (p && r)) != (q && r)) = decide (2 ≤ p.toNat + q.toNat + r.toNat) := by decide

/-- R105: "Bit by bit, `x` chooses". -/
theorem getLsbD_ch (x y z : Word) {i : Nat} (hi : i < 32) :
    (ch x y z).getLsbD i = if x.getLsbD i then y.getLsbD i else z.getLsbD i := by
  rw [ch, getLsbD_xor32, getLsbD_and32, getLsbD_and32, getLsbD_not32 x hi, choice_table]

/-- R106: "the result bit is 1 when at least two of the three input bits are 1". -/
theorem getLsbD_maj (x y z : Word) (i : Nat) :
    (maj x y z).getLsbD i = decide (2 ≤ (x.getLsbD i).toNat + (y.getLsbD i).toNat + (z.getLsbD i).toNat) := by
  rw [maj, getLsbD_xor32, getLsbD_xor32, getLsbD_and32, getLsbD_and32, getLsbD_and32, majority_table]

/-- Settles O38, from the bits of the two functions; the examples are computed. -/
theorem choiceAndMajority : Obligations.ChoiceAndMajority :=
  ⟨fun x y z i hi => ⟨getLsbD_ch x y z hi, getLsbD_maj x y z i⟩, by decide, by decide, by decide, by decide⟩

/-- R108: `T1` in the rule's order of operands. -/
theorem tempOne_eq (k w : Word) (r : Regs) : tempOne k w r = r.h + bigSigma1 r.e + ch r.e r.f r.g + k + w := add32s_five ..

/-- R108: `T2` with its sum written out. -/
theorem tempTwo_eq (r : Regs) : tempTwo r = bigSigma0 r.a + maj r.a r.b r.c := rfl

/-- Settles O44: the round in the order written is the simultaneous update, whose `T1` and `T2` are the sums of R108. -/
theorem sequentialRoundIsSimultaneous : Obligations.SequentialRoundIsSimultaneous := by
  intro k hj
  simp only [mixRound_of_lt k hj, roundOf, tempOne_eq, tempTwo_eq, add32]

/-- R110: the fold's eight sums, position by position. -/
theorem toList_foldRegs (S : HashState) (r : Regs) :
    (foldRegs S r).toList =
      [S[0] + r.a, S[1] + r.b, S[2] + r.c, S[3] + r.d, S[4] + r.e, S[5] + r.f, S[6] + r.g, S[7] + r.h] := rfl

/-- Settles O46: the load pairs registers and words as R107 lists them, the fold as R110 does. -/
theorem loadAndFoldByPosition : Obligations.LoadAndFoldByPosition := fun S => ⟨rfl, toList_foldRegs S⟩

end Sys2Proof.Machine
end

section
/-! PROOF. The read commands RDS, RDL, RDH and RDB (45_digest.md R117 to R120): the value each answers as a number of the state's
fields, and its tests in their order. -/

namespace Sys2Proof.Machine

/-- R24: `PHASE` lies below `N`, and neither loses a bit. -/
theorem statusWord_eq (s : State) : statusWord s = BitVec.ofNat 32 (256 * s.n.toNat + s.phase.code.toNat) := by
  have hn : s.n.toNat < 2 ^ 6 := s.n.isLt
  have hcode : s.phase.code.toNat < 2 ^ 8 := s.phase.code.isLt.trans (by decide)
  have hfield : (s.n.setWidth 32 <<< 8).toNat = s.n.toNat <<< 8 := by
    rw [BitVec.toNat_shiftLeft, BitVec.toNat_setWidth, Nat.shiftLeft_eq, Nat.shiftLeft_eq]
    omega
  have hphase : (s.phase.code.setWidth 32).toNat = s.phase.code.toNat := by
    rw [BitVec.toNat_setWidth]
    omega
  apply BitVec.eq_of_toNat_eq
  rw [statusWord, BitVec.toNat_or, hfield, hphase, ← Nat.shiftLeft_add_eq_or_of_lt hcode, Nat.shiftLeft_eq,
    BitVec.toNat_ofNat]
  omega

/-- Settles O23: every phase permits RDS, which answers the status word; an operand other than 0 is beyond its bound. -/
theorem rdsReturnsStatus : Obligations.RdsReturnsStatus := by
  refine ⟨fun s => ?status, fun s arg harg => exec_of_arg_above (i := .rds arg) (zero_lt_toNat_of_ne_zero harg) s⟩
  case status =>
    rw [exec_read_of_permitted (i := .rds 0) rfl (Nat.le_refl 0) (permitted_rds 0 s.phase), readValue, statusWord_eq]

/-- R118: the low half of `LEN` is its remainder by `2 ^ 32`, the high half its quotient. -/
theorem lenHalf_setWidth (len : BitVec 64) {arg : Arg} (h : arg.toNat ≤ 1) :
    lenHalf len (arg.setWidth 1) =
      BitVec.ofNat 32 (if arg.toNat = 0 then len.toNat % 2 ^ 32 else len.toNat / 2 ^ 32) := by
  have hsel : arg.setWidth 1 = 0 ↔ arg.toNat = 0 := by
    rw [← BitVec.toNat_inj, BitVec.toNat_setWidth, Nat.mod_eq_of_lt (Nat.lt_succ_of_le h)]
    rfl
  apply BitVec.eq_of_toNat_eq
  by_cases hlow : arg.toNat = 0
  · rw [lenHalf, if_pos (hsel.mpr hlow), if_pos hlow]
    simp
  · rw [lenHalf, if_neg (mt hsel.mp hlow), if_neg hlow]
    simp [Nat.shiftRight_eq_div_pow]

/-- Settles O24: the tests on the operand and on the phase in their order; past them RDL answers the selected half of `LEN`. -/
theorem rdlReturnsHalfOfLength : Obligations.RdlReturnsHalfOfLength := by
  refine fun s arg => ⟨fun habove => exec_of_arg_above (i := .rdl arg) habove s, fun hle hidle => ?seq,
    fun hle hphase => ?half⟩
  case seq => exact exec_of_not_permitted (i := .rdl arg) hle fun hp => (permitted_rdl arg s.phase).mp hp hidle
  case half =>
    rw [exec_read_of_permitted (i := .rdl arg) rfl hle ((permitted_rdl arg s.phase).mpr hphase), readValue,
      lenHalf_setWidth s.len hle]

/-- R34: an operand within the bound of RDH loses no bit as the 3-bit index of a state word. -/
theorem hashState_get_setWidth (H : HashState) (arg : Arg) (h : arg.toNat < 8) :
    H[(arg.setWidth 3).toNat] = H[arg.toNat] := by
  have hidx : (arg.setWidth 3).toNat = arg.toNat := by
    rw [BitVec.toNat_setWidth, Nat.mod_eq_of_lt h]
  simp only [hidx]

/-- Settles O25: the tests on the operand and on the phase in their order; past them RDH answers the state word at its operand. -/
theorem rdhReturnsStateWord : Obligations.RdhReturnsStateWord := by
  refine fun s arg => ⟨fun habove => exec_of_arg_above (i := .rdh arg) habove s, fun hle hidle => ?seq,
    fun hi hphase => ?word⟩
  case seq => exact exec_of_not_permitted (i := .rdh arg) hle fun hp => (permitted_rdh arg s.phase).mp hp hidle
  case word =>
    have hbound : (Instr.rdh arg).arg.toNat ≤ (Instr.rdh arg).argBound := Nat.le_of_lt_succ hi
    rw [exec_read_of_permitted rfl hbound ((permitted_rdh arg s.phase).mpr hphase), readValue,
      hashState_get_setWidth s.h arg hi]

/-- R120: the digest byte at an operand within the bound of RDB, zero-extended, is the slice of its state word as a number. -/
theorem digestByte_setWidth (H : HashState) (arg : Arg) (h : arg.toNat < 32) :
    (digestByte H (arg.setWidth 5)).setWidth 32 =
      BitVec.ofNat 32 (H[arg.toNat / 4].toNat / 2 ^ (24 - 8 * (arg.toNat % 4)) % 256) := by
  rw [← digestByte_toNat H ⟨arg.toNat, h⟩, BitVec.ofNat_toNat, BitVec.ofNat_toNat]

/-- Settles O26: the tests on the operand and on the phase in their order; past them RDB answers the digest byte at its operand. -/
theorem rdbReturnsDigestByte : Obligations.RdbReturnsDigestByte := by
  refine fun s arg => ⟨fun habove => exec_of_arg_above (i := .rdb arg) habove s, fun hle hphase => ?seq,
    fun hi hdone => ?byte⟩
  case seq => exact exec_of_not_permitted (i := .rdb arg) hle (mt (permitted_rdb arg s.phase).mp hphase)
  case byte =>
    have hbound : (Instr.rdb arg).arg.toNat ≤ (Instr.rdb arg).argBound := Nat.le_of_lt_succ hi
    rw [exec_read_of_permitted rfl hbound ((permitted_rdb arg s.phase).mpr hdone), readValue,
      digestByte_setWidth s.h arg hi]

end Sys2Proof.Machine
end

section
/-! PROOF. The digest as the host reads it (46_host_sequences.md R130, R131): its length, the operands its read commands accept,
the known digests, and the number of blocks a message pads to. -/

namespace Sys2Proof.Machine

/-- R61: in a phase that permits it, a read command is accepted exactly within its operand bound. -/
theorem accepted_read_iff_arg_le {i : Instr} {s : State} (hi : Safety.isRead i = true) (hp : permitted i s.phase = true) :
    (∃ t, exec i s = .next t ∧ Safety.Accepted t) ↔ i.arg.toNat ≤ i.argBound := by
  refine ⟨fun ⟨t, ht, ha⟩ => ?bound, fun hle => ⟨_, exec_read_of_permitted hi hle hp, accepted_of_ok s _⟩⟩
  case bound =>
    obtain ⟨e, he, rfl⟩ | ⟨hle, -⟩ := exec_cases ht
    · exact absurd ha (not_accepted_of_reject he)
    · exact hle

theorem length_hashBytes (m : Message) : (hashBytes m).length = 32 := by
  rw [hashBytes, List.length_map, List.length_range]

theorem length_hashHex (m : Message) : (hashHex m).length = 64 := by
  rw [hashHex, List.length_map, List.length_range]

/-- Settles O30: the lengths of the two renderings; DONE permits RDB and RDX, so their bounds alone decide. -/
theorem digestHasFixedLength : Obligations.DigestHasFixedLength :=
  ⟨fun m => ⟨length_hashBytes m, length_hashHex m⟩, fun s arg hdone =>
    ⟨accepted_read_iff_arg_le (i := .rdb arg) rfl ((permitted_rdb arg s.phase).mpr hdone),
     accepted_read_iff_arg_le (i := .rdx arg) rfl ((permitted_rdx arg s.phase).mpr hdone)⟩⟩

/-- R87: `Pad` adds a block as soon as the byte 0x80 and the length field do not fit behind the message. -/
theorem length_blocksOf_pad (m : Message) : (blocksOf (pad m)).length = (m.val.length + 8) / 64 + 1 := by
  rw [length_blocksOf, length_pad, padZeros]
  omega

/-- R131: the state after the one block of the empty message. -/
theorem hashState_of_empty {m : Message} (hm : m.val = []) :
    hashState m =
      #v[0xE3B0C442, 0x98FC1C14, 0x9AFBF4C8, 0x996FB924, 0x27AE41E4, 0x649B934C, 0xA495991B, 0x7852B855] := by
  rw [hashState, pad, hm]
  decide +kernel

/-- R131: the state after the one block of 61 62 63. -/
theorem hashState_of_abc {m : Message} (hm : m.val = [0x61, 0x62, 0x63]) :
    hashState m =
      #v[0xBA7816BF, 0x8F01CFEA, 0x414140DE, 0x5DAE2223, 0xB00361A3, 0x96177A9C, 0xB410FF61, 0xF20015AD] := by
  rw [hashState, pad, hm]
  decide +kernel

/-- Settles O51: the digests are the bytes of the two evaluated states; the block counts follow from the message lengths. -/
theorem knownDigests : Obligations.KnownDigests := by
  refine ⟨fun m hm => ?empty, fun m hm => ?abc, fun m hm => ?oneBlock, fun m hm => ?twoBlocks⟩
  case empty =>
    rw [hashBytes, hashState_of_empty hm]
    decide
  case abc =>
    rw [hashBytes, hashState_of_abc hm]
    decide
  case oneBlock => rw [length_blocksOf_pad, hm]
  case twoBlocks => rw [length_blocksOf_pad, hm]

end Sys2Proof.Machine
end

section
/-! PROOF. What a rejection writes (60_exceptions.md R141), for every word, assigned or not. -/

namespace Sys2Proof.Machine

/-- Settles O6: by the checks of O5 the state after a rejection is the one before it under the response of that status with
`rdata = 0`, and that response is the one answered. -/
theorem rejectionWritesNothing : Obligations.RejectionWritesNothing := by
  intro w s t r hexec hresp hrejected
  obtain ⟨t', r', hexec', hresp', hwrites, -⟩ := checksInFixedOrder w s
  obtain rfl : t = t' := Host.Outcome.next.inj (hexec.symm.trans hexec')
  obtain rfl : r = r' := Option.some.inj (hresp.symm.trans hresp')
  have ht : t = { s with resp := some { status := r.status, rdata := 0 } } := hwrites hrejected
  have hr : r = { status := r.status, rdata := 0 } := Option.some.inj (hresp.symm.trans (congrArg State.resp ht))
  exact ⟨congrArg Response.rdata hr, hr ▸ ht⟩

end Sys2Proof.Machine
end

section
/-! PROOF. The encoder and the decoder (30_encoding.md R54, R56, R65): a word is its two fields, and each of them is a match. -/

namespace Sys2Proof.Machine

/-- R54: a word is its two fields, `op` above `arg`. -/
theorem word_eq_append_fields (w : Word) : w = opField w ++ argField w := by
  rw [opField, argField, BitVec.extractLsb'_append_extractLsb'_eq_extractLsb' (show 24 = 0 + 24 from rfl)]
  exact BitVec.extractLsb'_eq_self.symm

/-- R56: a word decodes to the command that has its two fields, and to no other. -/
theorem decode_eq_ok_iff (w : Word) (i : Instr) : decode w = .ok i ↔ opField w = i.op ∧ argField w = i.arg := by
  constructor
  case mp =>
    intro h
    obtain ⟨j, hj, hop, harg⟩ | ⟨herror, -⟩ := decode_cases w
    · obtain rfl : j = i := Except.ok.inj (hj.symm.trans h)
      exact ⟨BitVec.eq_of_toNat_eq ((opField_toNat w).trans hop), BitVec.eq_of_toNat_eq ((argField_toNat w).trans harg)⟩
    · exact absurd (h.symm.trans herror) nofun
  case mpr =>
    rintro ⟨hop, harg⟩
    unfold decode
    rw [hop, harg]
    cases i <;> rfl

/-- R65: the fields of the encoded word are those of the command. -/
theorem decode_encode (i : Instr) : decode (encode i) = .ok i :=
  (decode_eq_ok_iff _ i).mpr (Laws.EncodedFields.of_fields i)

/-- R65: a word that decodes has the fields of its command's encoding, so it is that encoding. -/
theorem encode_of_decode_eq_ok {w : Word} {i : Instr} (h : decode w = .ok i) : encode i = w := by
  obtain ⟨hop, harg⟩ := (decode_eq_ok_iff w i).mp h
  obtain ⟨hop', harg'⟩ := Laws.EncodedFields.of_fields i
  rw [word_eq_append_fields (encode i), word_eq_append_fields w, hop, harg, hop', harg']

/-- Settles O2: the encoded word has the fields of its command, and a word is determined by its fields. -/
theorem encodeDecodeAgree : Obligations.EncodeDecodeAgree :=
  ⟨decode_encode, fun _ _ => encode_of_decode_eq_ok⟩

/-- R56: the mask leaves `op` in its place and nothing of `arg`. -/
theorem and_mask_eq_append (w : Word) : w &&& 0xFF000000 = opField w ++ (0 : Arg) := by
  conv_lhs => rw [word_eq_append_fields w, show (0xFF000000 : Word) = (0xFF : BitVec 8) ++ (0 : Arg) from rfl]
  rw [BitVec.and_append, show (0xFF : BitVec 8) = BitVec.allOnes 8 from rfl, BitVec.and_allOnes]
  simp

theorem opField_append (op : BitVec 8) (arg : Arg) : opField (op ++ arg) = op := by
  rw [opField, BitVec.extractLsb'_append_eq_left]

/-- R56, columns `match` and `mask`: the masked word is `op` followed by zeros exactly when its field is `op`. -/
theorem and_mask_eq_iff (w : Word) (op : BitVec 8) : w &&& 0xFF000000 = op ++ (0 : Arg) ↔ opField w = op := by
  rw [and_mask_eq_append]
  refine ⟨fun h => ?_, fun h => by rw [h]⟩
  rw [← opField_append (opField w) 0, h, opField_append]

/-- R56, column `match`. -/
def matchColumn : Instr → Word
  | .init _ => 0x01000000
  | .putb _ => 0x02000000
  | .final _ => 0x03000000
  | .rds _ => 0x10000000
  | .rdl _ => 0x11000000
  | .rdh _ => 0x12000000
  | .rdb _ => 0x13000000
  | .rdx _ => 0x14000000
  | .rdk _ => 0x15000000

theorem matchColumn_eq_append (i : Instr) : matchColumn i = i.op ++ (0 : Arg) := by
  apply BitVec.eq_of_toNat_eq
  rw [toNat_append_eq_mul_add]
  cases i <;> simp [matchColumn, Instr.op]

/-- Settles O3: the operand is `argField`, and each row's match is its `op` followed by zeros. -/
theorem matchAndMaskSelectCommand : Obligations.MatchAndMaskSelectCommand := by
  intro w i
  have harg : argField w = i.arg ↔ i.arg.toNat = w.toNat % 2 ^ 24 := by
    rw [← BitVec.toNat_inj, argField_toNat, eq_comm]
  rw [decode_eq_ok_iff, and_comm, harg, ← and_mask_eq_iff, ← matchColumn_eq_append]
  cases i <;> exact Iff.rfl

/-- Settles O1, by the decoder on each word. -/
theorem commandWordsDecode : Obligations.CommandWordsDecode :=
  ⟨rfl, rfl, rfl, rfl, rfl, rfl, rfl, rfl, rfl, rfl, rfl, rfl⟩

end Sys2Proof.Machine
end

section
/-! PROOF. What one step does with the host's next event (20_memory.md section 7, 70_reset_and_hazards.md R151, R153, R160): the
state after no event, after a reset request, after a word that is no command, and after a command. -/

namespace Sys2Proof.Machine

/-- Settles O7, by the nine rows of the two columns. -/
theorem portCodes : Obligations.PortCodes :=
  ⟨⟨rfl, rfl, rfl, fun p => by cases p <;> decide⟩, rfl, rfl, rfl, rfl, rfl, fun e => by cases e <;> decide⟩

/-- Settles O8: a rejection carries 0, and so does an accepted command that is no read. -/
theorem writeCommandsAnswerZero : Obligations.WriteCommandsAnswerZero := by
  intro i s t hwrite h
  obtain ⟨e, -, rfl⟩ | ⟨-, -, -, rfl⟩ := exec_cases h
  · rfl
  · cases i with
    | init | putb | final => rfl
    | rds | rdl | rdh | rdb | rdx | rdk => cases hwrite

/-- Settles O29: a read has no effect of its own, accepted or not. -/
theorem readsWriteNothing : Obligations.ReadsWriteNothing := fun _ _ _ hread h => exec_of_isRead hread h

theorem step_of_no_event {s : State} (h : s.host = []) : step s = .next s := by
  rw [step, serveHost, h]

theorem step_of_event {s : State} {e : HostEvent} {es : List HostEvent} (h : s.host = e :: es) :
    step s = takeEvent e { s with host := es } := by
  rw [step, serveHost, h]

/-- R61: a word that is no command is rejected. -/
theorem execWord_of_decode_error {w : Word} {e : DecodeError} (h : decode w = .error e) (s : State) :
    execWord w s = .next { s with resp := some { status := .illegal, rdata := 0 } } := by
  simp only [execWord, h, reject_eq]

/-- Settles O9: the step takes the event, and the word on it is executed as its command or rejected. -/
theorem stepRunsDecodedCommand : Obligations.StepRunsDecodedCommand :=
  ⟨fun _ _ _ _ hhost hd => (step_of_event hhost).trans (execWord_of_decode_ok hd _),
   fun _ _ _ _ hhost hd => (step_of_event hhost).trans (execWord_of_decode_error hd _)⟩

/-- Settles O10: the fields of `resetRequest`, on the state whose first event has been taken. -/
theorem resetRequestEffect : Obligations.ResetRequestEffect :=
  fun s es hhost => ⟨resetRequest { s with host := es }, step_of_event hhost, resetRequest_phase _, resetRequest_n _,
    resetRequest_resp _, resetRequest_host _⟩

/-- Settles O11, by the fields of the state a reset leaves. -/
theorem resetStateValues : Obligations.ResetStateValues :=
  ⟨State.afterReset_phase 0 [], State.afterReset_n 0 [], State.afterReset_resp 0 [], State.afterReset_host 0 []⟩

/-- Settles O12: with no event the step is that of an empty list. -/
theorem idleStepHoldsState : Obligations.IdleStepHoldsState := fun _ => step_of_no_event

theorem acceptedState_host (s : State) (i : Instr) : (acceptedState s i).host = s.host := by
  cases i with
  | init => exact openSession_host s
  | putb a => exact absorbByte_host _ s
  | final => exact finishSession_host s
  | rds | rdl | rdh | rdb | rdx | rdk => rfl

/-- R14: the host's later events are its own; no command takes or adds one. -/
theorem exec_host {i : Instr} {s t : State} (h : exec i s = .next t) : t.host = s.host := by
  obtain ⟨e, -, rfl⟩ | ⟨-, -, -, rfl⟩ := exec_cases h
  · rfl
  · exact acceptedState_host s i

/-- R135: "every word has a defined response". -/
theorem execWord_answers (w : Word) (s : State) : ∃ t r, execWord w s = .next t ∧ t.resp = some r := by
  obtain ⟨t, r, ht, hr, -⟩ := checksInFixedOrder w s
  exact ⟨t, r, ht, hr⟩

theorem execWord_host {w : Word} {s t : State} (h : execWord w s = .next t) : t.host = s.host := by
  obtain ⟨i, hd, -⟩ | ⟨hd, -⟩ := decode_cases w
  · exact exec_host ((execWord_of_decode_ok hd s).symm.trans h)
  · cases (execWord_of_decode_error hd s).symm.trans h
    rfl

/-- Settles O13: with no event the step answers the state, a reset request its own state, and a word always a response. -/
theorem everyStepAnswers : Obligations.EveryStepAnswers := by
  refine ⟨fun s => ?next, fun s t w es hhost h => ?response⟩
  case next =>
    cases hhost : s.host with
    | nil => exact ⟨s, step_of_no_event hhost⟩
    | cons e es =>
      cases e with
      | rst => exact ⟨_, step_of_event hhost⟩
      | cmd w =>
        obtain ⟨t, r, ht, -⟩ := execWord_answers w { s with host := es }
        exact ⟨t, (step_of_event hhost).trans ht⟩
  case response =>
    rw [step_of_event hhost] at h
    obtain ⟨t', r, ht', hr⟩ := execWord_answers w { s with host := es }
    obtain rfl : t = t' := Host.Outcome.next.inj (h.symm.trans ht')
    exact ⟨r, hr, execWord_host h⟩

/-- R33, R153: INIT alone ends IDLE. -/
theorem exec_phase_of_idle {i : Instr} {s t : State} (hidle : s.phase = .idle) (hinit : i ≠ .init 0)
    (h : exec i s = .next t) : t.phase = .idle := by
  obtain ⟨e, -, rfl⟩ | ⟨hbound, hp, -, rfl⟩ := exec_cases h
  · exact hidle
  · rw [hidle] at hp
    cases i with
    | init a => exact absurd (congrArg Instr.init (BitVec.eq_of_toNat_eq (Nat.le_zero.mp hbound))) hinit
    | putb | final | rdl | rdh | rdb | rdx => cases hp
    | rds | rdk => exact hidle

/-- R21, R117: in IDLE the status word is `N` alone. -/
theorem statusWord_of_idle {s : State} (h : s.phase = .idle) : statusWord s = BitVec.ofNat 32 (256 * s.n.toNat) := by
  rw [statusWord_eq, h]
  rfl

/-- Settles O21: each command by its row of the phase table, and a word other than that of `INIT 0` because INIT alone ends IDLE. -/
theorem idleAnswersOnlyStatusAndRom : Obligations.IdleAnswersOnlyStatusAndRom := by
  refine fun s hidle => ⟨fun i hwf => ?command, fun w t hw h => ?word⟩
  case command =>
    have hbound : i.arg.toNat ≤ i.argBound := of_decide_eq_true hwf
    cases i with
    | init a =>
      have hexec := exec_of_tests_passed hbound (permitted_init a s.phase) fun hop => absurd hop (by simp [Instr.op])
      exact ⟨_, hexec, openSession_phase s, accepted_of_ok _ _⟩
    | rds a =>
      have hread := exec_read_of_permitted rfl hbound (permitted_rds a s.phase)
      rwa [readValue, statusWord_of_idle hidle] at hread
    | rdk a =>
      have ha : a.toNat < 64 := Nat.lt_succ_of_le hbound
      have hread := exec_read_of_permitted rfl hbound (permitted_rdk a s.phase)
      have hword : kRom.toList.getD a.toNat 0 = kRom[a.toNat] := by
        rw [List.getD_eq_getElem _ _ (by simpa using ha), Vector.getElem_toList]
      rwa [readValue, krom_setWidth a ha, ← hword] at hread
    | putb | final | rdl | rdh | rdb | rdx =>
      exact exec_of_not_permitted hbound (by rw [hidle]; exact Bool.false_ne_true)
  case word =>
    obtain ⟨i, hd, -⟩ | ⟨hd, -⟩ := decode_cases w
    · rw [execWord_of_decode_ok hd] at h
      refine exec_phase_of_idle hidle (fun hinit => hw ?_) h
      rw [← encode_of_decode_eq_ok hd, hinit]
      rfl
    · cases (execWord_of_decode_error hd s).symm.trans h
      exact hidle

end Sys2Proof.Machine
end

section
/-! PROOF. What the session commands write and leave (42_padder.md section 2 to 4, 90_conflicts.md C4, 10_state.md section 1): the
bound of `LEN`, the frame of each command, and the writers of `H`. -/

namespace Sys2Proof.Machine

/-- R31, R93: of the multiples of 8 only `2^64 - 8` leaves no room for a byte. -/
theorem length_bound_iff {len : BitVec 64} (h : len.toNat % 8 = 0) :
    2 ^ 64 - 1 < len.toNat + 8 ↔ len = 0xFFFFFFFFFFFFFFF8 := by
  rw [← BitVec.toNat_inj, show (0xFFFFFFFFFFFFFFF8 : BitVec 64).toNat = 2 ^ 64 - 8 from rfl]
  have hlt := len.isLt
  omega

/-- R91: in an open session a byte for which `LEN` has room is absorbed. -/
theorem exec_putb_of_room {arg : Arg} {s : State} (h : arg.toNat ≤ 255) (hp : s.phase = .active)
    (hl : s.len.toNat + 8 ≤ 2 ^ 64 - 1) :
    exec (.putb arg) s = .next { absorbByte (arg.setWidth 8) s with resp := some (okResponse 0) } :=
  exec_of_tests_passed (i := .putb arg) h ((permitted_putb arg s.phase).mpr hp) fun _ => hl

/-- R94: in an open session FINAL is accepted. -/
theorem exec_final_of_active {s : State} (hp : s.phase = .active) :
    exec (.final 0) s = .next { finishSession s with resp := some (okResponse 0) } :=
  exec_of_tests_passed (i := .final 0) (Nat.le_refl 0) ((permitted_final 0 s.phase).mpr hp) fun hop =>
    absurd hop (by decide)

/-- Settles O17: short of the bound the byte is absorbed under an OK response, which no rejection is; FINAL does not ask `LEN`. -/
theorem lengthBoundIsReachedOnce : Obligations.LengthBoundIsReachedOnce := by
  refine fun s arg hactive hbyte hmod => ⟨?bound, _, exec_final_of_active hactive, rfl, finishSession_phase s, finishSession_len s⟩
  case bound =>
    rw [← length_bound_iff hmod]
    refine ⟨fun hreject => ?_, exec_putb_of_length_exceeded hbyte hactive⟩
    by_contra hroom
    have hok := exec_putb_of_room hbyte hactive (Nat.le_of_not_lt hroom)
    have hresp := congrArg State.resp (Host.Outcome.next.inj (hreject.symm.trans hok))
    cases hresp

/-- Settles O19: a rejection leaves all but the response, and an accepted command leaves what its effect does not write. -/
theorem sessionCommandFrame : Obligations.SessionCommandFrame := by
  refine ⟨fun s t arg h => ⟨?work, exec_host h⟩, fun s t arg h => ⟨?phase, exec_host h, fun hn => ?unfilled⟩,
    fun s t arg h => ⟨?len, exec_host h⟩⟩
  case work =>
    obtain ⟨e, -, rfl⟩ | ⟨-, -, -, rfl⟩ := exec_cases h
    · rfl
    · exact openSession_work s
  case phase =>
    obtain ⟨e, -, rfl⟩ | ⟨-, -, -, rfl⟩ := exec_cases h
    · rfl
    · exact absorbByte_phase _ s
  case unfilled =>
    obtain ⟨e, -, rfl⟩ | ⟨-, -, -, rfl⟩ := exec_cases h
    · exact ⟨rfl, rfl, fun _ _ => rfl⟩
    · have hne : s.n ≠ 63 := fun h63 => hn (congrArg BitVec.toNat h63)
      exact ⟨absorbByte_h_of_ne _ hne, absorbByte_work_of_ne _ hne, fun i hi =>
        (absorbByte_buf _ s hne i i.isLt hi.le).trans (if_neg hi.ne')⟩
  case len =>
    obtain ⟨e, -, rfl⟩ | ⟨-, -, -, rfl⟩ := exec_cases h
    · rfl
    · exact finishSession_len s

/-- R65: the encoding as a number. -/
theorem encode_toNat (i : Instr) : (encode i).toNat = i.op.toNat * 2 ^ 24 + i.arg.toNat := by
  obtain ⟨hop, harg⟩ := Laws.EncodedFields.of_fields i
  rw [word_eq_append_fields (encode i), hop, harg, toNat_append_eq_mul_add]

/-- R91: the word of a PUTB with a legal operand is that of its byte. -/
theorem encode_putb_of_byte {arg : Arg} (h : arg.toNat ≤ 255) :
    encode (.putb arg) = 0x02000000 + (arg.setWidth 8).setWidth 32 := by
  have hbyte : ((arg.setWidth 8).setWidth 32).toNat = arg.toNat := by
    rw [BitVec.toNat_setWidth, BitVec.toNat_setWidth]
    omega
  apply BitVec.eq_of_toNat_eq
  rw [encode_toNat, BitVec.toNat_add, hbyte]
  simp only [Instr.op, Instr.arg, BitVec.ofNat_eq_ofNat, BitVec.toNat_ofNat]
  omega

/-- R59: within a bound of 0 the operand is 0. -/
theorem eq_zero_of_toNat_le_zero {arg : Arg} (h : arg.toNat ≤ 0) : arg = 0 := BitVec.eq_of_toNat_eq (Nat.le_zero.mp h)

/-- R94: the state of the folded block or blocks of FINAL. -/
theorem finishSession_h_eq_ite (s : State) :
    (finishSession s).h =
      if s.n.toNat ≤ 55 then
        compress s.h (Vector.ofFn fun i => if i.val < 56 then paddedByte s i else lengthByte s.len i)
      else
        compress (compress s.h (Vector.ofFn (paddedByte s)))
          (Vector.ofFn fun i => if i.val < 56 then 0 else lengthByte s.len i) := by
  split_ifs with hn
  · exact finishSession_h_of_le hn
  · exact finishSession_h_of_gt hn

/-- R16: the commands that write `H`, each with its value; every other answer leaves it. -/
theorem exec_h_cases {i : Instr} {s t : State} (h : exec i s = .next t) :
    t.h = s.h ∨
    (i = .init 0 ∧ t.h = h0) ∨
    (∃ a, i = .putb a ∧ a.toNat ≤ 255 ∧ s.phase = .active ∧ s.n = 63 ∧ s.len.toNat + 8 ≤ 2 ^ 64 - 1 ∧
      t.h = compress s.h (s.buf.set 63 (a.setWidth 8))) ∨
    (i = .final 0 ∧ s.phase = .active ∧ t.h = (finishSession s).h) := by
  obtain ⟨e, -, rfl⟩ | ⟨hbound, hp, hlen, rfl⟩ := exec_cases h
  · exact .inl rfl
  · cases i with
    | init a =>
      obtain rfl := eq_zero_of_toNat_le_zero hbound
      exact .inr (.inl ⟨rfl, openSession_h s⟩)
    | putb a =>
      by_cases hn : s.n = 63
      · exact .inr (.inr (.inl ⟨a, rfl, hbound, (permitted_putb a s.phase).mp hp, hn, hlen a rfl, absorbByte_h_of_eq _ hn⟩))
      · exact .inl (absorbByte_h_of_ne _ hn)
    | final a =>
      obtain rfl := eq_zero_of_toNat_le_zero hbound
      exact .inr (.inr (.inr ⟨rfl, (permitted_final 0 s.phase).mp hp, rfl⟩))
    | rds | rdl | rdh | rdb | rdx | rdk => exact .inl rfl

/-- Settles O22: a step's writer of `H` is a reset request or a command that writes it, whose word is its encoding. -/
theorem hashStateWrittenOnlyByInitAndFold : Obligations.HashStateWrittenOnlyByInitAndFold := by
  intro s t h
  obtain ⟨-, rfl⟩ | ⟨es, hhost, rfl⟩ | ⟨w, es, e, -, -, rfl⟩ | ⟨w, es, i, hhost, hd, hexec⟩ := step_cases h
  · exact .inl rfl
  · exact .inr (.inl ⟨es, hhost⟩)
  · exact .inl rfl
  · obtain rfl := encode_of_decode_eq_ok hd
    obtain hkept | ⟨rfl, hinit⟩ | ⟨a, rfl, ha, hactive, hn, hlen, hfold⟩ | ⟨rfl, hactive, hfold⟩ := exec_h_cases hexec
    · exact .inl hkept
    · exact .inr (.inr (.inl ⟨hinit, es, hhost⟩))
    · exact .inr (.inr (.inr (.inl
        ⟨hactive, congrArg BitVec.toNat hn, hlen, a.setWidth 8, es, encode_putb_of_byte ha ▸ hhost, hfold⟩)))
    · exact .inr (.inr (.inr (.inr ⟨hactive, ⟨es, hhost⟩, hfold.trans (finishSession_h_eq_ite _)⟩)))

end Sys2Proof.Machine
end

section
/-! PROOF. Invariants of the step (10_state.md section 9): what reset meets and every accepted command keeps, every step keeps;
and the invariants of `N` and `LEN`. -/

namespace Sys2Proof.Machine

/-- An invariant that speaks of neither the response nor the host's events is kept by every step once a reset request leads to it
and every accepted command keeps it (R141: a rejection writes the response alone). -/
theorem step_keeps {P : State → Prop}
    (hport : ∀ (s : State) (r : Option Response) (es : List HostEvent), P s → P { s with resp := r, host := es })
    (hreset : ∀ s, P (resetRequest s))
    (hcommand : ∀ (s : State) (i : Instr), P s → permitted i s.phase = true →
      (∀ a, i = .putb a → s.len.toNat + 8 ≤ 2 ^ 64 - 1) → P (acceptedState s i))
    {s t : State} (hs : P s) (h : step s = .next t) : P t := by
  obtain ⟨-, rfl⟩ | ⟨es, -, rfl⟩ | ⟨w, es, e, -, -, rfl⟩ | ⟨w, es, i, -, -, hexec⟩ := step_cases h
  · exact hs
  · exact hreset _
  · exact hport s _ es hs
  · have hes : P { s with host := es } := hport s s.resp es hs
    obtain ⟨e, -, rfl⟩ | ⟨-, hp, hlen, rfl⟩ := exec_cases hexec
    · exact hport s _ es hs
    · exact hport _ _ _ (hcommand _ i hes hp hlen)

theorem countersAgree_openSession (s : State) : Safety.CountersAgree (openSession s) :=
  ⟨nofun, fun _ => ⟨rfl, Nat.zero_le _⟩, fun _ => by rw [openSession_n, openSession_len]; rfl, nofun⟩

/-- R91: `LEN` and `N` advance together, by a byte. -/
theorem countersAgree_absorbByte (b : Byte) {s : State} (hs : Safety.CountersAgree s) (hactive : s.phase = .active)
    (hlen : s.len.toNat + 8 ≤ 2 ^ 64 - 1) : Safety.CountersAgree (absorbByte b s) := by
  obtain ⟨-, hopen, hn, -⟩ := hs
  obtain ⟨hmod, -⟩ := hopen (hactive ▸ nofun)
  have hcount := hn hactive
  have hphase : (absorbByte b s).phase = .active := (absorbByte_phase b s).trans hactive
  have hlen' : (absorbByte b s).len.toNat = s.len.toNat + 8 := by
    rw [absorbByte_len, BitVec.toNat_add]
    exact Nat.mod_eq_of_lt (show s.len.toNat + 8 < 2 ^ 64 by omega)
  have hn' : (absorbByte b s).n.toNat = (s.n.toNat + 1) % 64 := by
    rw [absorbByte_n, BitVec.toNat_add]
    rfl
  refine ⟨fun h => absurd (hphase.symm.trans h) nofun, fun _ => ?_, fun _ => ?_, fun h => absurd (hphase.symm.trans h) nofun⟩
  · rw [hlen']
    omega
  · rw [hlen', hn']
    omega

theorem countersAgree_finishSession {s : State} (hs : Safety.CountersAgree s) (hactive : s.phase = .active) :
    Safety.CountersAgree (finishSession s) := by
  obtain ⟨-, hopen, -, -⟩ := hs
  refine ⟨nofun, fun _ => ?_, nofun, fun _ => finishSession_n s⟩
  rw [finishSession_len]
  exact hopen (hactive ▸ nofun)

/-- Settles O53: reset leaves IDLE with `N = 0`, and each accepted command keeps the counters in agreement. -/
theorem stepKeepsCounters : Obligations.StepKeepsCounters := by
  refine fun s t hs h => step_keeps (fun _ _ _ hs => hs) (fun s => ?reset) (fun s i hs hp hlen => ?command) hs h
  case reset => exact ⟨fun _ => rfl, fun h => absurd rfl h, nofun, nofun⟩
  case command =>
    cases i with
    | init => exact countersAgree_openSession s
    | putb a => exact countersAgree_absorbByte _ hs ((permitted_putb a s.phase).mp hp) (hlen a rfl)
    | final a => exact countersAgree_finishSession hs ((permitted_final a s.phase).mp hp)
    | rds | rdl | rdh | rdb | rdx | rdk => exact hs

/-- Settles O54: the reset state is IDLE with `N = 0`. -/
theorem resetMeetsCounters : Obligations.ResetMeetsCounters :=
  ⟨fun _ => State.afterReset_n 0 [], fun h => absurd (State.afterReset_phase 0 []) h, nofun, nofun⟩

end Sys2Proof.Machine
end

section
/-! PROOF. The blocks of a byte sequence (46_host_sequences.md R125) and of a padded message (42_padder.md section 1): how they grow
with the sequence, and that they determine it. -/

namespace Sys2Proof.Machine

/-- R125: a block that lies within the first of two sequences does not see the second. -/
theorem blockAt_append_left {P : List Byte} (Q : List Byte) {k : Nat} (h : 64 * (k + 1) ≤ P.length) :
    blockAt (P ++ Q) k = blockAt P k := by
  refine Vector.ext fun i hi => ?_
  simp only [blockAt, Vector.getElem_ofFn]
  exact List.getD_append _ _ _ _ (by omega)

/-- R125: behind whole blocks the next sequence is cut on its own. -/
theorem blockAt_append_right {P : List Byte} (Q : List Byte) {q : Nat} (k : Nat) (h : P.length = 64 * q) :
    blockAt (P ++ Q) (q + k) = blockAt Q k := by
  refine Vector.ext fun i hi => ?_
  simp only [blockAt, Vector.getElem_ofFn]
  rw [List.getD_append_right _ _ _ _ (by omega)]
  congr 1
  omega

/-- R125: a longer sequence keeps the whole blocks of the shorter one, and the further blocks start behind them. -/
theorem blocksOf_append (P Q : List Byte) {d : Nat} (hd : (P.length + Q.length) / 64 = P.length / 64 + d) :
    blocksOf (P ++ Q) = blocksOf P ++ (List.range d).map fun k => blockAt (P ++ Q) (P.length / 64 + k) := by
  have hkept : (List.range (P.length / 64)).map (blockAt (P ++ Q)) = blocksOf P :=
    List.map_congr_left fun k hk => blockAt_append_left Q (by have := List.mem_range.mp hk; omega)
  rw [blocksOf, List.length_append, hd, List.range_add, List.map_append, List.map_map, hkept]
  rfl

theorem blocksOf_append_of_dvd {P : List Byte} (Q : List Byte) (h : P.length % 64 = 0) :
    blocksOf (P ++ Q) = blocksOf P ++ blocksOf Q := by
  have hfurther : (List.range (Q.length / 64)).map (fun k => blockAt (P ++ Q) (P.length / 64 + k)) = blocksOf Q :=
    List.map_congr_left fun k _ => blockAt_append_right Q k (by omega)
  rw [blocksOf_append P Q (d := Q.length / 64) (by omega), hfurther]

/-- Settles O52: `Pad(m1)` is whole blocks, so the chain goes on behind them. -/
theorem lengthExtension : Obligations.LengthExtension := by
  intro m1 m2 suffix hm2
  rw [hashState, pad, hm2, List.append_assoc, blocksOf_append_of_dvd _ (length_pad_mod m1), chain_append]
  rfl

/-- Settles O48: the block count and the length of `Pad`, with `z` as the rule has it. -/
theorem paddedLengthAndBlockCount : Obligations.PaddedLengthAndBlockCount := by
  intro m
  have hlen := length_pad m
  have hzeros : padZeros m.val.length < 64 := Nat.mod_lt _ (by decide)
  rw [length_blocksOf_pad]
  refine ⟨length_pad_mod m, rfl, ?_, ?_, ?_, ?_⟩ <;> omega

/-- R37: the eight bytes of the length field determine it. -/
theorem be64_injective {v w : BitVec 64} (h : be64 v = be64 w) : v = w := by
  have hbyte (k : Nat) (hk : k < 8) : be64Byte v k = be64Byte w k :=
    List.map_inj_left.mp h k (List.mem_range.mpr hk)
  refine BitVec.eq_of_getLsbD_eq fun i hi => ?_
  have hbit := congrArg (BitVec.getLsbD · (i % 8)) (hbyte (7 - i / 8) (by omega))
  have hidx : 56 - 8 * (7 - i / 8) + i % 8 = i := by omega
  simpa [be64Byte, BitVec.getLsbD_extractLsb', hidx, Nat.mod_lt] using hbit

/-- R86: the length field of `Pad` is its last eight bytes. -/
theorem pad_eq_append_be64 (m : Message) :
    pad m = (m.val ++ ([0x80] ++ List.replicate (padZeros m.val.length) 0)) ++ be64 (BitVec.ofNat 64 (8 * m.val.length)) := by
  simp only [pad, padTail, List.append_assoc]

/-- R86, R89: a message's bit length fits the length field. -/
theorem toNat_bitLength (m : Message) : (BitVec.ofNat 64 (8 * m.val.length)).toNat = 8 * m.val.length := by
  have hbound : m.val.length ≤ 2 ^ 61 - 1 := m.property
  rw [BitVec.toNat_ofNat, Nat.mod_eq_of_lt (by omega)]

/-- 42_padder.md section 1, item 6: the length field gives the length, and the first bytes the message. -/
theorem pad_injective {m m' : Message} (h : pad m = pad m') : m = m' := by
  rw [pad_eq_append_be64, pad_eq_append_be64] at h
  obtain ⟨hfront, hfield⟩ := List.append_inj' h (by rw [length_be64, length_be64])
  have hbits := congrArg BitVec.toNat (be64_injective hfield)
  rw [toNat_bitLength, toNat_bitLength] at hbits
  obtain ⟨hval, -⟩ := List.append_inj hfront (Nat.eq_of_mul_eq_mul_left (by decide) hbits)
  exact Subtype.ext hval

/-- R125: byte `i` of a sequence stands in block `i / 64`. -/
theorem getD_eq_blockAt_get (P : List Byte) (i : Nat) :
    P.getD i 0 = (blockAt P (i / 64))[i % 64]'(Nat.mod_lt _ (by decide)) := by
  rw [blockAt, Vector.getElem_ofFn, Nat.div_add_mod]

/-- R125: a sequence of whole blocks is determined by them. -/
theorem eq_of_blocksOf_eq {P Q : List Byte} (hP : P.length % 64 = 0) (hQ : Q.length % 64 = 0) (h : blocksOf P = blocksOf Q) :
    P = Q := by
  have hcount := congrArg List.length h
  rw [length_blocksOf, length_blocksOf] at hcount
  have hlen : P.length = Q.length := by omega
  refine List.ext_getElem hlen fun i hi hi' => ?_
  have hblock : blockAt P (i / 64) = blockAt Q (i / 64) := by
    rw [blocksOf, blocksOf, ← hlen] at h
    exact List.map_inj_left.mp h _ (List.mem_range.mpr (by omega))
  rw [← List.getD_eq_getElem P 0 hi, ← List.getD_eq_getElem Q 0 hi', getD_eq_blockAt_get, getD_eq_blockAt_get Q, hblock]

/-- Settles O49: `Pad` is injective, and its result is whole blocks. -/
theorem padIsInjective : Obligations.PadIsInjective := fun m m' =>
  ⟨pad_injective, fun h => pad_injective (eq_of_blocksOf_eq (length_pad_mod m) (length_pad_mod m') h)⟩

end Sys2Proof.Machine
end

section
/-! PROOF. What an open and a finalized session stand for (42_padder.md R96, 45_digest.md R115): PUTB appends its byte to the message
absorbed so far, and FINAL leaves the state of its hash. -/

namespace Sys2Proof.Machine

theorem absorbed_openSession (s : State) : Safety.Absorbed [] (openSession s) :=
  ⟨Nat.zero_le _, congrArg BitVec.toNat (openSession_len s), congrArg BitVec.toNat (openSession_n s), openSession_h s,
    fun _ h => absurd h (Nat.not_lt_zero _)⟩

section absorbed
variable {m : List Byte} {s : State} (hs : Safety.Absorbed m s)
include hs

/-- R26, R96: the buffered bytes are those behind the whole blocks of the message. -/
theorem buf_get_of_absorbed (i : Nat) (hi : i < 64) (hn : i < s.n.toNat) : s.buf[i] = m.getD (64 * (m.length / 64) + i) 0 := by
  obtain ⟨-, -, hcount, -, hbuf⟩ := hs
  exact hbuf ⟨i, hi⟩ (hcount ▸ hn)

/-- R91: the 64th byte completes the block that the message then ends with. -/
theorem buf_set_of_absorbed (b : Byte) (hn : s.n.toNat = 63) : s.buf.set 63 b = blockAt (m ++ [b]) (m.length / 64) := by
  have hbuf := buf_get_of_absorbed hs
  obtain ⟨-, -, hcount, -, -⟩ := hs
  refine Vector.ext fun i hi => ?_
  simp only [blockAt, Vector.getElem_ofFn, Vector.getElem_set]
  split_ifs with h63
  · rw [List.getD_append_right _ _ _ _ (by omega), show 64 * (m.length / 64) + i - m.length = 0 by omega]
    rfl
  · rw [List.getD_append _ _ _ _ (by omega), hbuf i hi (by omega)]

/-- R91, R96: the new byte closes a block at `N = 63` and waits in the buffer otherwise. -/
theorem absorbByte_h_of_absorbed (b : Byte) : (absorbByte b s).h = chain h0 (blocksOf (m ++ [b])) := by
  have hblock := buf_set_of_absorbed hs b
  obtain ⟨-, -, hcount, hchain, -⟩ := hs
  by_cases hn : s.n = 63
  · have hn' : s.n.toNat = 63 := congrArg BitVec.toNat hn
    rw [absorbByte_h_of_eq b hn, hblock hn', hchain,
      blocksOf_append m [b] (d := 1) (by rw [List.length_singleton]; omega), chain_append]
    rfl
  · have hn' : s.n.toNat ≠ 63 := fun h => hn (BitVec.eq_of_toNat_eq h)
    rw [absorbByte_h_of_ne b hn, hchain,
      blocksOf_append m [b] (d := 0) (by rw [List.length_singleton]; omega), List.range_zero, List.map_nil, List.append_nil]

/-- R91, R26: short of a full block the buffer holds the bytes behind the whole blocks, the new one last. -/
theorem absorbByte_buf_of_absorbed (b : Byte) (i : Fin 64) (hi : i.val < (m ++ [b]).length % 64) :
    (absorbByte b s).buf[i] = (m ++ [b]).getD (64 * ((m ++ [b]).length / 64) + i.val) 0 := by
  have hbuf := buf_get_of_absorbed hs i.val i.isLt
  obtain ⟨-, -, hcount, -, -⟩ := hs
  rw [List.length_append, List.length_singleton] at hi ⊢
  have hn : s.n ≠ 63 := fun h => by
    have : s.n.toNat = 63 := congrArg BitVec.toNat h
    omega
  rw [Fin.getElem_fin, absorbByte_buf b s hn i.val i.isLt (by omega), show (m.length + 1) / 64 = m.length / 64 by omega]
  split_ifs with hlast
  · rw [List.getD_append_right _ _ _ _ (by omega), show 64 * (m.length / 64) + i.val - m.length = 0 by omega]
    rfl
  · rw [List.getD_append _ _ _ _ (by omega), hbuf (by omega)]

/-- R91, R96: an absorbed byte is the last byte of the message. -/
theorem absorbed_absorbByte (b : Byte) (hlen : s.len.toNat + 8 ≤ 2 ^ 64 - 1) : Safety.Absorbed (m ++ [b]) (absorbByte b s) := by
  have hchain := absorbByte_h_of_absorbed hs b
  have hbuf := absorbByte_buf_of_absorbed hs b
  obtain ⟨-, hbits, hcount, -, -⟩ := hs
  have hsucc : (m ++ [b]).length = m.length + 1 := List.length_append
  refine ⟨?_, ?_, ?_, hchain, hbuf⟩
  · rw [hsucc, maxMessageBytes]
    omega
  · rw [absorbByte_len, BitVec.toNat_add, hsucc, hbits]
    exact Nat.mod_eq_of_lt (show 8 * m.length + 8 < 2 ^ 64 by omega)
  · rw [absorbByte_n, BitVec.toNat_add, hsucc, hcount]
    exact Nat.mod_add_mod m.length 64 1

end absorbed

section padBytes
variable (m : Message)

theorem getD_pad_of_lt {j : Nat} (h : j < m.val.length) : (pad m).getD j 0 = m.val.getD j 0 :=
  List.getD_append _ _ _ _ h

theorem getD_pad_length : (pad m).getD m.val.length 0 = 0x80 := by
  rw [pad, List.getD_append_right _ _ _ _ le_rfl, Nat.sub_self]
  rfl

theorem length_pad_front : (m.val ++ ([0x80] ++ List.replicate (padZeros m.val.length) (0 : Byte))).length =
    m.val.length + 1 + padZeros m.val.length := by
  rw [List.length_append, List.length_append, List.length_singleton, List.length_replicate, Nat.add_assoc]

/-- R86, step 3: the bytes between 0x80 and the length field are zero. -/
theorem getD_pad_of_zeros {j : Nat} (hlo : m.val.length < j) (hhi : j < m.val.length + 1 + padZeros m.val.length) :
    (pad m).getD j 0 = 0 := by
  have hone : ([0x80] : List Byte).length = 1 := rfl
  rw [pad_eq_append_be64, List.getD_append _ _ _ _ (hhi.trans_eq (length_pad_front m).symm),
    List.getD_append_right _ _ _ _ hlo.le, List.getD_append_right _ _ _ _ (by omega), List.getD_replicate _ (by omega)]

/-- R86, step 4: the last eight bytes are the length field. -/
theorem getD_pad_lengthField {k : Nat} (h : k < 8) :
    (pad m).getD (m.val.length + 1 + padZeros m.val.length + k) 0 = be64Byte (BitVec.ofNat 64 (8 * m.val.length)) k := by
  rw [pad_eq_append_be64, ← length_pad_front, List.getD_append_right _ _ _ _ (Nat.le_add_right _ _), Nat.add_sub_cancel_left,
    be64, List.getD_eq_getElem _ _ (by rwa [List.length_map, List.length_range]), List.getElem_map, List.getElem_range]

end padBytes

section absorbedMessage
variable {m : Message} {s : State} (hs : Safety.Absorbed m.val s)
include hs

/-- R94: in front of the length field, the padded buffer holds the bytes of `Pad(m)` behind the whole blocks of `m`. -/
theorem getD_pad_of_absorbed (i : Fin 64)
    (hi : 64 * (m.val.length / 64) + i.val < m.val.length + 1 + padZeros m.val.length) :
    (pad m).getD (64 * (m.val.length / 64) + i.val) 0 = paddedByte s i := by
  have hbuf := buf_get_of_absorbed hs i.val i.isLt
  obtain ⟨-, -, hcount, -, -⟩ := hs
  unfold paddedByte
  split_ifs with hlt heq
  · rw [getD_pad_of_lt m (by omega), Fin.getElem_fin, hbuf hlt]
  · rw [show 64 * (m.val.length / 64) + i.val = m.val.length by omega, getD_pad_length]
  · exact getD_pad_of_zeros m (by omega) hi

/-- R94: bytes 56 to 63 of the last block of `Pad(m)` are those of `LEN`. -/
theorem getD_pad_of_last_block {p : Nat} (hp : m.val.length + 1 + padZeros m.val.length = 64 * p + 56) (i : Fin 64)
    (hi : 56 ≤ i.val) : (pad m).getD (64 * p + i.val) 0 = lengthByte s.len i := by
  obtain ⟨-, hbits, -, -, -⟩ := hs
  have hidx : 64 * p + i.val = m.val.length + 1 + padZeros m.val.length + (i.val - 56) := by omega
  rw [hidx, getD_pad_lengthField m (by omega), be64Byte_eq, toNat_bitLength, lengthByte, hbits,
    show 56 - 8 * (i.val - 56) = 8 * (63 - i.val) by omega]

/-- R94, R96: FINAL folds in the blocks of `Pad(m)` behind the whole blocks of `m`, one or two of them. -/
theorem finishSession_h_of_absorbed : (finishSession s).h = hashState m := by
  have hbody := getD_pad_of_absorbed hs
  have hlast {p : Nat} := getD_pad_of_last_block hs (p := p)
  obtain ⟨-, -, hcount, hchain, -⟩ := hs
  have hlen : m.val.length + (padTail m.val.length).length = m.val.length + 1 + padZeros m.val.length + 8 := by
    rw [← length_pad, pad, List.length_append]
  by_cases hn : s.n.toNat ≤ 55
  case pos =>
    have hz : m.val.length + 1 + padZeros m.val.length = 64 * (m.val.length / 64) + 56 := by
      unfold padZeros
      omega
    have hblock : blockAt (pad m) (m.val.length / 64) =
        Vector.ofFn fun i => if i.val < 56 then paddedByte s i else lengthByte s.len i := by
      refine congrArg Vector.ofFn (funext fun i => ?_)
      split_ifs with hi
      · exact hbody i (by omega)
      · exact hlast hz i (by omega)
    rw [finishSession_h_of_le hn, hashState, pad, blocksOf_append _ _ (d := 1) (by omega), chain_append, ← hchain, ← hblock]
    rfl
  case neg =>
    have hz : m.val.length + 1 + padZeros m.val.length = 64 * (m.val.length / 64 + 1) + 56 := by
      unfold padZeros
      omega
    have hfirst : blockAt (pad m) (m.val.length / 64) = Vector.ofFn (paddedByte s) :=
      congrArg Vector.ofFn (funext fun i => hbody i (by omega))
    have hsecond : blockAt (pad m) (m.val.length / 64 + 1) =
        Vector.ofFn fun i => if i.val < 56 then 0 else lengthByte s.len i := by
      refine congrArg Vector.ofFn (funext fun i => ?_)
      split_ifs with hi
      · exact getD_pad_of_zeros m (by omega) (by omega)
      · exact hlast hz i (by omega)
    rw [finishSession_h_of_gt hn, hashState, pad, blocksOf_append _ _ (d := 2) (by omega), chain_append, ← hchain, ← hfirst,
      ← hsecond]
    rfl

/-- R94, R115: FINAL leaves the finalized session of the message. -/
theorem finalized_finishSession : Safety.Finalized m (finishSession s) := by
  have hhash := finishSession_h_of_absorbed hs
  obtain ⟨-, hbits, -, -, -⟩ := hs
  exact ⟨hhash, finishSession_n s, by rw [finishSession_len, hbits]⟩

end absorbedMessage

section standsForMessage
variable {s : State}

theorem standsForMessage_of_active (h : s.phase = .active) :
    Safety.SessionStandsForMessage s ↔ ∃ m, Safety.Absorbed m s := by
  simp only [Safety.SessionStandsForMessage, h]

theorem standsForMessage_of_done (h : s.phase = .done) :
    Safety.SessionStandsForMessage s ↔ ∃ m, Safety.Finalized m s := by
  simp only [Safety.SessionStandsForMessage, h]

end standsForMessage

/-- Settles O55: INIT opens the session of the empty message, PUTB appends its byte, and FINAL leaves the hash. -/
theorem stepKeepsSessionMeaning : Obligations.StepKeepsSessionMeaning := by
  refine fun s t hs h => step_keeps (fun _ _ _ hs => hs) resetRequest_n (fun s i hs hp hlen => ?command) hs h
  case command =>
    cases i with
    | init => exact (standsForMessage_of_active (openSession_phase s)).mpr ⟨[], absorbed_openSession s⟩
    | putb a =>
      have hactive := (permitted_putb a s.phase).mp hp
      obtain ⟨m, hm⟩ := (standsForMessage_of_active hactive).mp hs
      exact (standsForMessage_of_active ((absorbByte_phase _ s).trans hactive)).mpr
        ⟨m ++ [a.setWidth 8], absorbed_absorbByte hm _ (hlen a rfl)⟩
    | final a =>
      have hactive := (permitted_final a s.phase).mp hp
      obtain ⟨m, hm⟩ := (standsForMessage_of_active hactive).mp hs
      have hbound : m.length ≤ maxMessageBytes := hm.1
      exact (standsForMessage_of_done (finishSession_phase s)).mpr ⟨⟨m, hbound⟩, finalized_finishSession hm⟩
    | rds | rdl | rdh | rdb | rdx | rdk => exact hs

/-- Settles O56: the reset state is IDLE with `N = 0`. -/
theorem resetMeetsSessionMeaning : Obligations.ResetMeetsSessionMeaning := State.afterReset_n 0 []

end Sys2Proof.Machine
end

section
/-! PROOF. What the host can observe (10_state.md section 8, 70_reset_and_hazards.md section 3, 46_host_sequences.md section 3): two
states that agree in what a response or a later state can depend on answer every command alike. -/

namespace Sys2Proof.Machine

/-- R61: a command that passes its tests was permitted and leaves its own effect under an OK response. -/
theorem exec_of_commandStatus_ok {i : Instr} {s : State} (h : commandStatus i s = .ok) :
    permitted i s.phase = true ∧
      exec i s = .next { acceptedState s i with resp := some (okResponse (readValue s i)) } := by
  obtain ⟨t, r, ht, hr, -, hstatus⟩ := exec_answers i s
  have haccepted : Safety.Accepted t := by
    rw [Safety.Accepted, hr]
    exact congrArg some (hstatus.trans h)
  obtain ⟨hp, rfl⟩ := exec_of_accepted ht haccepted
  exact ⟨hp, ht⟩

/-- R141: a command that fails a test writes that test's response alone. -/
theorem exec_of_commandStatus_ne_ok {i : Instr} {s : State} (h : commandStatus i s ≠ .ok) :
    exec i s = .next { s with resp := some { status := commandStatus i s, rdata := 0 } } := by
  obtain ⟨t, r, ht, -, hreject, hstatus⟩ := exec_answers i s
  rw [ht, hreject (hstatus ▸ h), hstatus]

/-- R30, R26: two engines agree in everything a response or a later state can depend on; the port (response and events) is left
aside. -/
def AgreeInside (s t : State) : Prop :=
  s.phase = t.phase ∧ s.n = t.n ∧ (s.phase ≠ .idle → s.h = t.h ∧ s.len = t.len) ∧
  (s.phase = .active → ∀ i : Fin 64, i.val < s.n.toNat → s.buf[i] = t.buf[i])

theorem sameToHost_iff (s t : State) :
    Safety.SameToHost s t ↔ s.resp = t.resp ∧ s.host = t.host ∧ AgreeInside s t := by
  unfold AgreeInside
  tauto

/-- The port is no part of what `AgreeInside` compares. -/
theorem AgreeInside.with_port {s t : State} (h : AgreeInside s t) (r r' : Option Response) (es es' : List HostEvent) :
    AgreeInside { s with resp := r, host := es } { t with resp := r', host := es' } := h

theorem agreeInside_openSession (s t : State) : AgreeInside (openSession s) (openSession t) :=
  ⟨rfl, rfl, fun _ => ⟨rfl, rfl⟩, fun _ _ h => absurd h (Nat.not_lt_zero _)⟩

theorem agreeInside_resetRequest (s t : State) : AgreeInside (resetRequest s) (resetRequest t) :=
  ⟨rfl, rfl, fun h => absurd rfl h, nofun⟩

section agree
variable {s t : State} (h : AgreeInside s t)
include h

/-- R60, R93: the tests look at `PHASE`, and at `LEN` in ACTIVE alone. -/
theorem commandStatus_congr (i : Instr) : commandStatus i s = commandStatus i t := by
  obtain ⟨hphase, -, hopen, -⟩ := h
  have hlen : permitted i s.phase = true → (i.op = 0x02 ∧ lengthExceeded s ↔ i.op = 0x02 ∧ lengthExceeded t) := by
    intro hp
    cases i with
    | putb a =>
      obtain ⟨-, hlen⟩ := hopen ((permitted_putb a s.phase).mp hp ▸ nofun)
      rw [lengthExceeded, lengthExceeded, hlen]
    | init | final | rds | rdl | rdh | rdb | rdx | rdk => simp [Instr.op]
  unfold commandStatus
  rw [← hphase]
  by_cases hp : permitted i s.phase = true
  · simp only [hp, hlen hp]
  · simp only [hp]
    rfl

/-- R117 to R122: a permitted read answers from the fields that agree in its phase. -/
theorem readValue_congr {i : Instr} (hp : permitted i s.phase = true) : readValue s i = readValue t i := by
  obtain ⟨hphase, hn, hopen, -⟩ := h
  cases i with
  | init | putb | final | rdk => rfl
  | rds => rw [readValue, readValue, statusWord_eq, statusWord_eq, hphase, hn]
  | rdl a => rw [readValue, readValue, (hopen ((permitted_rdl a s.phase).mp hp)).2]
  | rdh a => rw [readValue, readValue, (hopen ((permitted_rdh a s.phase).mp hp)).1]
  | rdb a => rw [readValue, readValue, (hopen ((permitted_rdb a s.phase).mp hp ▸ nofun)).1]
  | rdx a => rw [readValue, readValue, (hopen ((permitted_rdx a s.phase).mp hp ▸ nofun)).1]

/-- R91: the byte is stored behind bytes that agree, and the 64th completes a block that agrees. -/
theorem agreeInside_absorbByte (b : Byte) (hactive : s.phase = .active) : AgreeInside (absorbByte b s) (absorbByte b t) := by
  obtain ⟨hphase, hn, hopen, hbuf⟩ := h
  obtain ⟨hh, hlen⟩ := hopen (hactive ▸ nofun)
  have hbytes := hbuf hactive
  refine ⟨by rw [absorbByte_phase, absorbByte_phase, hphase], by rw [absorbByte_n, absorbByte_n, hn],
    fun _ => ⟨?h, by rw [absorbByte_len, absorbByte_len, hlen]⟩, fun _ i hi => ?buf⟩
  case h =>
    by_cases h63 : s.n = 63
    · have hblock : s.buf.set 63 b = t.buf.set 63 b := by
        refine Vector.ext fun i hi => ?_
        rw [Vector.getElem_set, Vector.getElem_set]
        split_ifs with hlast
        · rfl
        · exact hbytes ⟨i, hi⟩ (by rw [h63]; show i < 63; omega)
      rw [absorbByte_h_of_eq b h63, absorbByte_h_of_eq b (hn ▸ h63), hh, hblock]
    · rw [absorbByte_h_of_ne b h63, absorbByte_h_of_ne b (hn ▸ h63), hh]
  case buf =>
    have h63 : s.n ≠ 63 := by
      intro h63
      rw [absorbByte_n, h63] at hi
      exact Nat.not_lt_zero _ hi
    have hle : i.val ≤ s.n.toNat := by
      rw [absorbByte_n, BitVec.toNat_add] at hi
      exact Nat.le_of_lt_succ (hi.trans_le (Nat.mod_le _ _))
    rw [Fin.getElem_fin, Fin.getElem_fin, absorbByte_buf b s h63 i i.isLt hle, absorbByte_buf b t (hn ▸ h63) i i.isLt (hn ▸ hle),
      ← hn]
    split_ifs with hlast
    · rfl
    · exact hbytes i (by omega)

/-- R94: FINAL pads bytes that agree. -/
theorem agreeInside_finishSession (hactive : s.phase = .active) : AgreeInside (finishSession s) (finishSession t) := by
  obtain ⟨-, hn, hopen, hbuf⟩ := h
  obtain ⟨hh, hlen⟩ := hopen (hactive ▸ nofun)
  have hpadded : paddedByte s = paddedByte t := by
    funext i
    unfold paddedByte
    rw [← hn]
    split_ifs with hlt
    · exact hbuf hactive i hlt
    · rfl
    · rfl
  refine ⟨by rw [finishSession_phase, finishSession_phase], by rw [finishSession_n, finishSession_n],
    fun _ => ⟨?_, by rw [finishSession_len, finishSession_len, hlen]⟩, fun h => absurd ((finishSession_phase s).symm.trans h) nofun⟩
  rw [finishSession_h_eq_ite, finishSession_h_eq_ite, hpadded, hn, hh, hlen]

theorem agreeInside_acceptedState {i : Instr} (hp : permitted i s.phase = true) :
    AgreeInside (acceptedState s i) (acceptedState t i) := by
  cases i with
  | init => exact agreeInside_openSession s t
  | putb a => exact agreeInside_absorbByte h _ ((permitted_putb a s.phase).mp hp)
  | final a => exact agreeInside_finishSession h ((permitted_final a s.phase).mp hp)
  | rds | rdl | rdh | rdb | rdx | rdk => exact h

/-- R30: from states that agree inside a command leaves the same response, and states that agree inside. -/
theorem exec_agreeInside (i : Instr) :
    ∃ s' t' r, exec i s = .next s' ∧ exec i t = .next t' ∧ s'.resp = some r ∧ t'.resp = some r ∧ AgreeInside s' t' := by
  have hstatus := commandStatus_congr h i
  by_cases hok : commandStatus i s = .ok
  · obtain ⟨hp, hs⟩ := exec_of_commandStatus_ok hok
    obtain ⟨-, ht⟩ := exec_of_commandStatus_ok (hstatus.symm.trans hok)
    exact ⟨_, _, _, hs, ht, rfl, by rw [readValue_congr h hp], (agreeInside_acceptedState h hp).with_port _ _ _ _⟩
  · have ht := exec_of_commandStatus_ne_ok (hstatus ▸ hok)
    exact ⟨_, _, _, exec_of_commandStatus_ne_ok hok, ht, rfl, by rw [hstatus], h.with_port _ _ _ _⟩

/-- R62: the same holds of every word, assigned or not. -/
theorem execWord_agreeInside (w : Word) :
    ∃ s' t' r, execWord w s = .next s' ∧ execWord w t = .next t' ∧ s'.resp = some r ∧ t'.resp = some r ∧ AgreeInside s' t' := by
  obtain ⟨i, hd, -⟩ | ⟨hd, -⟩ := decode_cases w
  · rw [execWord_of_decode_ok hd, execWord_of_decode_ok hd]
    exact exec_agreeInside h i
  · exact ⟨_, _, _, execWord_of_decode_error hd s, execWord_of_decode_error hd t, rfl, rfl, h.with_port _ _ _ _⟩

end agree

/-- Settles O57: the two states take the same event; after rst both are IDLE with `N = 0`, and a word answers them alike. -/
theorem nothingHiddenIsObservable : Obligations.NothingHiddenIsObservable := by
  intro s t hst
  obtain ⟨-, hhost, h⟩ := (sameToHost_iff s t).mp hst
  cases hs : s.host with
  | nil => exact ⟨s, t, step_of_no_event hs, step_of_no_event (hhost.symm.trans hs), hst⟩
  | cons e es =>
    rw [step_of_event hs, step_of_event (hhost.symm.trans hs)]
    cases e with
    | rst => exact ⟨_, _, rfl, rfl, (sameToHost_iff _ _).mpr ⟨rfl, rfl, agreeInside_resetRequest _ _⟩⟩
    | cmd w =>
      obtain ⟨s', t', r, hs', ht', hr, hr', h'⟩ := execWord_agreeInside (h.with_port s.resp t.resp es es) w
      exact ⟨s', t', hs', ht', (sameToHost_iff _ _).mpr
        ⟨hr.trans hr'.symm, (execWord_host hs').trans (execWord_host ht').symm, h'⟩⟩

/-- R47: a run's first command answers, and the run goes on from the state it leaves. -/
theorem runCommands_cons {i : Instr} {is : List Instr} {s t u : State} {r : Response} {rs : List Response}
    (h : exec i s = .next t) (hr : t.resp = some r) (hrun : runCommands is t = some (rs, u)) :
    runCommands (i :: is) s = some (r :: rs, u) := by
  simp only [runCommands, h, hr, hrun]

/-- R129: from states that agree inside every command sequence answers the same responses. -/
theorem runCommands_agreeInside (is : List Instr) {s t : State} (h : AgreeInside s t) :
    ∃ rs s' t', runCommands is s = some (rs, s') ∧ runCommands is t = some (rs, t') := by
  induction is generalizing s t with
  | nil => exact ⟨[], s, t, rfl, rfl⟩
  | cons i is ih =>
    obtain ⟨s', t', r, hs, ht, hr, hr', h'⟩ := exec_agreeInside h i
    obtain ⟨rs, u, v, hu, hv⟩ := ih h'
    exact ⟨r :: rs, u, v, runCommands_cons hs hr hu, runCommands_cons ht hr' hv⟩

/-- R90: in every phase `INIT 0` is accepted. -/
theorem exec_init_zero (s : State) : exec (.init 0) s = .next { openSession s with resp := some (okResponse 0) } :=
  exec_of_tests_passed (i := .init 0) (Nat.le_refl 0) (permitted_init 0 s.phase) fun hop => absurd hop (by decide)

/-- Settles O60: INIT leaves states that agree inside, whatever it met. -/
theorem responsesIndependentOfHistory : Obligations.ResponsesIndependentOfHistory := by
  intro is s t
  obtain ⟨rs, s', t', hs, ht⟩ := runCommands_agreeInside is
    ((agreeInside_openSession s t).with_port (some (okResponse 0)) (some (okResponse 0)) s.host t.host)
  exact ⟨okResponse 0 :: rs, s', t', runCommands_cons (exec_init_zero s) rfl hs, runCommands_cons (exec_init_zero t) rfl ht⟩

end Sys2Proof.Machine
end

section
/-! PROOF. The hex rendering of the digest (45_digest.md R121 to R123): the character RDX answers, and what parsing a rendering gives
back. -/

namespace Sys2Proof.Machine

/-- R121, D16: the code of a hex digit as a number, zero-extended. -/
theorem hexDigit_setWidth :
    ∀ n : BitVec 4, (hexDigit n).setWidth 32 =
      BitVec.ofNat 32 (if n.toNat ≤ 9 then 0x30 + n.toNat else 0x61 + (n.toNat - 10)) := by decide

/-- R121, R122: the codes of the sixteen digits. -/
theorem hexDigit_code :
    ∀ n : BitVec 4, (0x30 ≤ (hexDigit n).toNat ∧ (hexDigit n).toNat ≤ 0x39) ∨
      (0x61 ≤ (hexDigit n).toNat ∧ (hexDigit n).toNat ≤ 0x66) := by decide

/-- R121: `byte[7:4]` of a byte as a number is its quotient by 16. -/
theorem toNat_highNibble (b : Byte) : (b.extractLsb' 4 4).toNat = b.toNat / 16 := by
  rw [BitVec.extractLsb'_toNat, Nat.shiftRight_eq_div_pow]
  have := b.isLt
  omega

/-- R121: `byte[3:0]` of a byte as a number is its remainder by 16. -/
theorem toNat_lowNibble (b : Byte) : (b.extractLsb' 0 4).toNat = b.toNat % 16 := by
  rw [BitVec.extractLsb'_toNat, Nat.shiftRight_zero]

/-- R121: a character of a byte, the high nibble first. -/
theorem hexOfByte_setWidth (b : Byte) (k : Nat) :
    (hexOfByte b (k % 2 == 1)).setWidth 32 =
      (let nibble := if k % 2 = 0 then b.toNat / 16 else b.toNat % 16
       BitVec.ofNat 32 (if nibble ≤ 9 then 0x30 + nibble else 0x61 + (nibble - 10))) := by
  rw [hexOfByte, hexDigit_setWidth]
  obtain heven | hodd := Nat.mod_two_eq_zero_or_one k
  · simp only [heven, Nat.reduceBEq, Bool.false_eq_true, if_false, if_true, toNat_highNibble]
  · simp only [hodd, Nat.reduceBEq, one_ne_zero, if_false, if_true, toNat_lowNibble]

/-- R122: the character at an operand within the bound of RDX is one of the two of digest byte `arg div 2`. -/
theorem digestChar_setWidth (H : HashState) (arg : Arg) (h : arg.toNat < 64) :
    digestChar H (arg.setWidth 6) = hexOfByte (digestByte H (BitVec.ofNat 5 (arg.toNat / 2))) (arg.toNat % 2 == 1) := by
  have hidx : (arg.setWidth 6).toNat = arg.toNat := by
    rw [BitVec.toNat_setWidth, Nat.mod_eq_of_lt h]
  rw [digestChar, hidx]

/-- Settles O27: the tests on the operand and on the phase in their order; past them RDX answers the character at its operand. -/
theorem rdxReturnsHexCharacter : Obligations.RdxReturnsHexCharacter := by
  refine fun s arg => ⟨fun habove => exec_of_arg_above (i := .rdx arg) habove s, fun hle hphase => ?seq,
    fun hi hdone => ?character⟩
  case seq => exact exec_of_not_permitted (i := .rdx arg) hle (mt (permitted_rdx arg s.phase).mp hphase)
  case character =>
    have hbound : (Instr.rdx arg).arg.toNat ≤ (Instr.rdx arg).argBound := Nat.le_of_lt_succ hi
    have hbyte := digestByte_toNat s.h ⟨arg.toNat / 2, by omega⟩
    rw [exec_read_of_permitted rfl hbound ((permitted_rdx arg s.phase).mpr hdone), readValue, digestChar_setWidth s.h arg hi,
      hexOfByte_setWidth, hbyte]

/-- R121: the characters of the digest two by two. -/
theorem map_range_two_mul {α : Type} (f : Nat → α) (n : Nat) :
    (List.range (2 * n)).map f = (List.range n).flatMap fun i => [f (2 * i), f (2 * i + 1)] := by
  induction n with
  | zero => rfl
  | succ n ih => simp [Nat.mul_succ, List.range_succ, ih]

theorem digestChar_of_index (H : HashState) {k : Nat} (h : k < 64) :
    digestChar H (BitVec.ofNat 6 k) = hexOfByte (digestByte H (BitVec.ofNat 5 (k / 2))) (k % 2 == 1) := by
  rw [digestChar, BitVec.toNat_ofNat, Nat.mod_eq_of_lt h]

/-- R125, R121: the 64 characters render the 32 digest bytes. -/
theorem hashHex_eq_toHex (m : Message) : hashHex m = toHex (hashBytes m) := by
  rw [hashHex, toHex, hashBytes, List.flatMap_map, show 64 = 2 * 32 from rfl, map_range_two_mul]
  refine List.flatMap_congr fun i hi => ?_
  have hlt := List.mem_range.mp hi
  rw [digestChar_of_index _ (by omega), digestChar_of_index _ (by omega), show 2 * i / 2 = i by omega,
    show (2 * i + 1) / 2 = i by omega, show 2 * i % 2 = 0 by omega, show (2 * i + 1) % 2 = 1 by omega]
  rfl

theorem toHex_cons (b : Byte) (bs : List Byte) : toHex (b :: bs) = hexOfByte b false :: hexOfByte b true :: toHex bs := rfl

/-- R123 (2): parsing a rendering gives back the bytes. -/
theorem parseHex_toHex (bs : List Byte) : parseHex (toHex bs) = some bs := by
  induction bs with
  | nil => rfl
  | cons b bs ih => simp [toHex_cons, parseHex, hexOfByte, ih, nibbles_append]

/-- R123 (1): two characters a byte. -/
theorem length_toHex (bs : List Byte) : (toHex bs).length = 2 * bs.length := by
  induction bs with
  | nil => rfl
  | cons b bs ih => rw [toHex_cons, List.length_cons, List.length_cons, ih, List.length_cons, Nat.mul_succ]

/-- R121: every character of a rendering is a hex digit. -/
theorem exists_hexDigit_of_mem_toHex {bs : List Byte} {c : Byte} (h : c ∈ toHex bs) : ∃ n, c = hexDigit n := by
  obtain ⟨b, -, hc⟩ := List.mem_flatMap.mp h
  obtain rfl | rfl : c = hexOfByte b false ∨ c = hexOfByte b true := by simpa using hc
  · exact ⟨_, rfl⟩
  · exact ⟨_, rfl⟩

/-- Settles O31: the rendering is injective because parsing inverts it. -/
theorem hexRenderingIsInjective : Obligations.HexRenderingIsInjective := by
  refine ⟨hashHex_eq_toHex, fun m => ?parsed, parseHex_toHex, fun bs cs h => ?injective, fun bs => ⟨length_toHex bs, fun c hc => ?codes⟩⟩
  case parsed => rw [hashHex_eq_toHex, parseHex_toHex]
  case injective => exact Option.some.inj (by rw [← parseHex_toHex bs, h, parseHex_toHex])
  case codes =>
    obtain ⟨n, rfl⟩ := exists_hexDigit_of_mem_toHex hc
    exact hexDigit_code n

end Sys2Proof.Machine
end

section
/-! PROOF. The host's sequences (46_host_sequences.md section 2 and 3, 42_padder.md section 5): a streamed session leaves the state of
the one-shot function, and HASH with RDHEX reads its digest. -/

namespace Sys2Proof.Machine

/-- R47: a run that answers answers its first command and then the others. -/
theorem runCommands_cons_cases {i : Instr} {is : List Instr} {s u : State} {rs : List Response}
    (h : runCommands (i :: is) s = some (rs, u)) :
    ∃ t r rs', exec i s = .next t ∧ t.resp = some r ∧ runCommands is t = some (rs', u) ∧ rs = r :: rs' := by
  unfold runCommands at h
  split at h
  · rename_i t ht
    split at h
    · rename_i r rs' u' hr hrun
      cases h
      exact ⟨t, r, rs', ht, hr, hrun, rfl⟩
    · cases h
  · cases h
  · cases h

/-- R47: one sequence after another. -/
theorem runCommands_append {is js : List Instr} {s t u : State} {rs qs : List Response}
    (h : runCommands is s = some (rs, t)) (h' : runCommands js t = some (qs, u)) :
    runCommands (is ++ js) s = some (rs ++ qs, u) := by
  induction is generalizing s rs with
  | nil =>
    cases h
    exact h'
  | cons i is ih =>
    obtain ⟨s', r, rs', hexec, hr, hrun, rfl⟩ := runCommands_cons_cases h
    exact runCommands_cons hexec hr (ih hrun)

theorem runCommands_singleton {i : Instr} {s t : State} {r : Response} (h : exec i s = .next t) (hr : t.resp = some r) :
    runCommands [i] s = some ([r], t) := runCommands_cons h hr rfl

/-- R128: the operand that delivers a byte is legal, and the byte absorbed is that byte. -/
theorem toNat_byteArg (b : Byte) : ((b.setWidth 24 : Arg)).toNat = b.toNat := by
  rw [BitVec.toNat_setWidth]
  exact Nat.mod_eq_of_lt (b.isLt.trans (by decide))

theorem byteArg_setWidth (b : Byte) : ((b.setWidth 24 : Arg)).setWidth 8 = b := by
  apply BitVec.eq_of_toNat_eq
  rw [BitVec.toNat_setWidth, toNat_byteArg, Nat.mod_eq_of_lt b.isLt]

/-- R96, R128: one PUTB a byte appends the bytes to the message absorbed so far, every response OK with 0. -/
theorem runCommands_putm {m : List Byte} {s : State} (bs : List Byte) (hs : Safety.Absorbed m s) (hactive : s.phase = .active)
    (hlen : m.length + bs.length ≤ maxMessageBytes) :
    ∃ t, runCommands (putm (byteArgs bs)) s = some (List.replicate bs.length (okResponse 0), t) ∧ t.phase = .active ∧
      Safety.Absorbed (m ++ bs) t := by
  induction bs generalizing m s with
  | nil => exact ⟨s, rfl, hactive, by rwa [List.append_nil]⟩
  | cons b bs ih =>
    have hbyte : (b.setWidth 24 : Arg).toNat ≤ 255 := by
      rw [toNat_byteArg]
      exact Nat.le_of_lt_succ b.isLt
    have hroom : s.len.toNat + 8 ≤ 2 ^ 64 - 1 := by
      obtain ⟨-, hbits, -⟩ := hs
      rw [List.length_cons, maxMessageBytes] at hlen
      omega
    have hexec := exec_putb_of_room hbyte hactive hroom
    rw [byteArg_setWidth] at hexec
    obtain ⟨t, hrun, ht, habsorbed⟩ := ih
      (s := { absorbByte b s with resp := some (okResponse 0) }) (absorbed_absorbByte hs b hroom)
      ((absorbByte_phase b s).trans hactive)
      (by rw [List.length_append, List.length_singleton]; rw [List.length_cons] at hlen; omega)
    rw [List.append_assoc] at habsorbed
    exact ⟨t, runCommands_cons hexec rfl hrun, ht, habsorbed⟩

theorem finalized_with_resp {m : Message} {s : State} (h : Safety.Finalized m s) (r : Option Response) :
    Safety.Finalized m { s with resp := r } := h

/-- R96: INIT, one PUTB a byte and FINAL leave the finalized session of the message, from any state. -/
theorem runCommands_session (m : Message) (s : State) :
    ∃ t, runCommands ([.init 0] ++ putm (byteArgs m.val) ++ [.final 0]) s =
        some (List.replicate (m.val.length + 2) (okResponse 0), t) ∧ t.phase = .done ∧ Safety.Finalized m t := by
  obtain ⟨t, hrun, hactive, habsorbed⟩ := runCommands_putm (s := { openSession s with resp := some (okResponse 0) }) m.val
    (absorbed_openSession s) (openSession_phase s) (by rw [List.length_nil, Nat.zero_add]; exact m.property)
  have hopened := runCommands_append (runCommands_singleton (exec_init_zero s) rfl) hrun
  have hclosed := runCommands_append hopened (runCommands_singleton (exec_final_of_active hactive) rfl)
  have hresponses : [okResponse 0] ++ List.replicate m.val.length (okResponse 0) ++ [okResponse 0] =
      List.replicate (m.val.length + 2) (okResponse 0) := by
    rw [List.replicate_succ', List.replicate_succ]
    rfl
  rw [hresponses] at hclosed
  exact ⟨_, hclosed, finishSession_phase t, finalized_with_resp (finalized_finishSession habsorbed) _⟩

/-- Settles O58: the finalized session holds the state of `Hash(m)`. -/
theorem streamingAgreesWithOneShot : Obligations.StreamingAgreesWithOneShot := by
  intro m s
  obtain ⟨t, hrun, hdone, hhash, hn, hlen⟩ := runCommands_session m s
  exact ⟨t, hrun, hhash, hdone, hn, hlen⟩

/-- R124: read values do not depend on the response before them. -/
theorem readValue_with_resp (s : State) (r : Option Response) (i : Instr) : readValue { s with resp := r } i = readValue s i := by
  cases i <;> rfl

/-- R124: a sequence of legal reads that the phase permits answers each read's value, and leaves all but the response. -/
theorem runCommands_reads (s : State) {is : List Instr}
    (h : ∀ i ∈ is, Safety.isRead i = true ∧ i.arg.toNat ≤ i.argBound ∧ permitted i s.phase = true) (r : Option Response) :
    ∃ r', runCommands is { s with resp := r } = some (is.map fun i => okResponse (readValue s i), { s with resp := r' }) := by
  induction is generalizing r with
  | nil => exact ⟨r, rfl⟩
  | cons i is ih =>
    obtain ⟨⟨hread, hbound, hp⟩, hrest⟩ := List.forall_mem_cons.mp h
    have hexec := exec_read_of_permitted (s := { s with resp := r }) hread hbound hp
    rw [readValue_with_resp] at hexec
    obtain ⟨r', hrun⟩ := ih hrest (some (okResponse (readValue s i)))
    exact ⟨r', runCommands_cons hexec rfl hrun⟩

/-- R66: the reads of the indices below `n`, each within its bound and permitted, answer their values in index order. -/
theorem runCommands_indexed_reads (s : State) (mk : Arg → Instr) (n : Nat)
    (h : ∀ k < n, Safety.isRead (mk (BitVec.ofNat 24 k)) = true ∧
      (mk (BitVec.ofNat 24 k)).arg.toNat ≤ (mk (BitVec.ofNat 24 k)).argBound ∧
      permitted (mk (BitVec.ofNat 24 k)) s.phase = true) (r : Option Response) :
    ∃ r', runCommands ((List.range n).map fun k => mk (BitVec.ofNat 24 k)) { s with resp := r } =
      some ((List.range n).map fun k => okResponse (readValue s (mk (BitVec.ofNat 24 k))), { s with resp := r' }) := by
  have hreads : ∀ i ∈ (List.range n).map fun k => mk (BitVec.ofNat 24 k),
      Safety.isRead i = true ∧ i.arg.toNat ≤ i.argBound ∧ permitted i s.phase = true := by
    intro i hi
    obtain ⟨k, hk, rfl⟩ := List.mem_map.mp hi
    exact h k (List.mem_range.mp hk)
  obtain ⟨r', hrun⟩ := runCommands_reads s hreads r
  rw [List.map_map] at hrun
  exact ⟨r', hrun⟩

/-- R54: an index of a digest read, as the operand its command carries. -/
theorem toNat_indexArg {k : Nat} (h : k < 64) : (BitVec.ofNat 24 k).toNat = k := Nat.mod_eq_of_lt (by omega)

section finalized
variable {m : Message} {s : State} (hdone : s.phase = .done) (hs : s.h = hashState m) (r : Option Response)
include hdone hs

/-- R66, R120: RDDIGEST answers the 32 bytes of `Hash(m)`. -/
theorem runCommands_rddigest :
    ∃ r', runCommands rddigest { s with resp := r } =
      some ((hashBytes m).map (fun b => okResponse (b.setWidth 32)), { s with resp := r' }) := by
  obtain ⟨r', hrun⟩ := runCommands_indexed_reads s .rdb 32
    (fun k hk => ⟨rfl, (toNat_indexArg (by omega)).trans_le (Nat.le_of_lt_succ hk), (permitted_rdb _ _).mpr hdone⟩) r
  have hresponses : (hashBytes m).map (fun b => okResponse (b.setWidth 32)) =
      (List.range 32).map fun k => okResponse (readValue s (.rdb (BitVec.ofNat 24 k))) := by
    rw [hashBytes, List.map_map, ← hs]
    rfl
  exact ⟨r', hresponses ▸ hrun⟩

/-- R66, R122: RDHEX answers the 64 characters of `HashHex(m)`. -/
theorem runCommands_rdhex :
    ∃ r', runCommands rdhex { s with resp := r } =
      some ((hashHex m).map (fun b => okResponse (b.setWidth 32)), { s with resp := r' }) := by
  obtain ⟨r', hrun⟩ := runCommands_indexed_reads s .rdx 64
    (fun k hk => ⟨rfl, (toNat_indexArg hk).trans_le (Nat.le_of_lt_succ hk), (permitted_rdx _ _).mpr hdone⟩) r
  have hresponses : (hashHex m).map (fun b => okResponse (b.setWidth 32)) =
      (List.range 64).map fun k => okResponse (readValue s (.rdx (BitVec.ofNat 24 k))) := by
    rw [hashHex, List.map_map, ← hs]
    rfl
  exact ⟨r', hresponses ▸ hrun⟩

end finalized

/-- Settles O59: the session of HASH ends in DONE with the state of `Hash(m)`, from which the reads answer. -/
theorem hashSequenceReturnsDigest : Obligations.HashSequenceReturnsDigest := by
  intro m s
  obtain ⟨t, hsession, hdone, hhash, -⟩ := runCommands_session m s
  obtain ⟨r, hdigest⟩ := runCommands_rddigest hdone hhash t.resp
  obtain ⟨r', hhex⟩ := runCommands_rdhex hdone hhash r
  exact ⟨_, runCommands_append (runCommands_append hsession hdigest) hhex⟩

end Sys2Proof.Machine
end

section
/-! PROOF. The n-operand sum (40_word_arithmetic.md section 1) and the units on the transients (44_compression.md section 5). -/

namespace Sys2Proof.Machine

/-- R68: the chain of additions is the library's sum of the list. -/
theorem add32s_eq_sum (xs : List Word) : add32s xs = xs.sum := List.sum_eq_foldl.symm

/-- 40_word_arithmetic.md section 1: truncation may wait until the unbounded sum is formed. -/
theorem toNat_sum (xs : List Word) : xs.sum.toNat = (xs.map BitVec.toNat).sum % 2 ^ 32 := by
  induction xs with
  | nil => rfl
  | cons x xs ih => rw [List.sum_cons, BitVec.toNat_add, ih, List.map_cons, List.sum_cons, Nat.add_mod_mod]

/-- Settles O33, from the sum of a list, which neither the order nor the grouping changes. -/
theorem manyOperandSumIsExactSumModulo : Obligations.ManyOperandSumIsExactSumModulo := by
  refine ⟨fun xs => ?exact, fun xs ys h => ?order, fun xs ys => ?grouping⟩
  case exact => rw [add32s_eq_sum, toNat_sum]
  case order => rw [add32s_eq_sum, add32s_eq_sum, h.sum_eq]
  case grouping => rw [add32s_eq_sum, add32s_eq_sum, add32s_eq_sum, List.sum_append, add32]

/-- Settles O45: the MIXER's run ends with the schedule, the sequencer and the registers as `Mixed` has them. -/
theorem mixerComputesCompress : Obligations.MixerComputesCompress := by
  intro S B k
  obtain ⟨hj, hw, hregs⟩ := mixed_runMixer S B k
  exact ⟨hw, BitVec.eq_of_toNat_eq hj, by rw [hregs, compress]⟩

end Sys2Proof.Machine
end

section
/-! PROOF. The constant tables (41_constants.md section 1 and 2, 95_test_vectors.md V9): the column of primes, and each constant as
the root of its prime. -/

namespace Sys2Proof.Machine

/-- The `i`-th number of those below `n` that meet `p` is the `i`-th of all. -/
theorem nth_of_getElem?_filter_range {p : Nat → Prop} [DecidablePred p] {n i a : Nat}
    (h : ((List.range n).filter fun k => p k)[i]? = some a) : Nat.nth p i = a := by
  suffices hcount : p a ∧ Nat.count p a = i by
    rw [← hcount.2, Nat.nth_count hcount.1]
  have hlen (m : Nat) : ((List.range m).filter fun k => p k).length = Nat.count p m := by
    rw [Nat.count, List.countP_eq_length_filter]
  induction n with
  | zero => cases h
  | succ n ih =>
    rw [List.range_succ, List.filter_append] at h
    obtain hi | hi := Nat.lt_or_ge i ((List.range n).filter fun k => p k).length
    · exact ih (by rwa [List.getElem?_append_left hi] at h)
    · rw [List.getElem?_append_right hi, hlen] at h
      rw [hlen] at hi
      by_cases hp : p n
      · obtain ⟨hidx, rfl⟩ : i - Nat.count p n = 0 ∧ n = a := by
          simpa [hp, List.getElem?_singleton] using h
        exact ⟨hp, by omega⟩
      · simp [hp] at h

/-- R79: the column `p` holds the primes below 312, by trial of every divisor. -/
theorem tablePrimes_eq_filter : tablePrimes = (List.range 312).filter fun k => Nat.Prime k := by decide +kernel

/-- R78, R80: the column `p` at index `i` is `p_i`. -/
theorem tablePrimes_getD (i : Fin 64) : tablePrimes.getD i.val 0 = Nat.nth Nat.Prime i.val := by
  have hlt : i.val < tablePrimes.length := i.isLt
  have hget : tablePrimes[i.val]? = some (tablePrimes.getD i.val 0) := by
    rw [List.getD_eq_getElem _ _ hlt, List.getElem?_eq_getElem hlt]
  rw [tablePrimes_eq_filter] at hget
  rw [nth_of_getElem?_filter_range hget, ← tablePrimes_eq_filter]

/-- Settles O40: the checksums are computed, and the primes are those of the filtered range. -/
theorem constantTablesChecksums : Obligations.ConstantTablesChecksums :=
  ⟨by decide +kernel, by decide +kernel, by decide +kernel, rfl, tablePrimes_getD⟩

/-- R78: the integer part of each cube root is below 7, and the table holds the fraction's first 32 bits. -/
theorem kRom_isFloorCbrt :
    ∀ i : Fin 64, ∃ k < 7, IsFloorCbrt (tablePrimes.getD i.val 0 * 2 ^ 96) (k * 2 ^ 32 + kRom[i].toNat) := by decide +kernel

/-- R80: the integer part of each square root is below 5, and the table holds the fraction's first 32 bits. -/
theorem h0_isFloorSqrt :
    ∀ i : Fin 8, ∃ k < 5, IsFloorSqrt (tablePrimes.getD i.val 0 * 2 ^ 64) (k * 2 ^ 32 + h0[i].toNat) := by decide +kernel

/-- R78, R80: the low 32 bits drop the integer part of a root. -/
theorem ofNat_integer_add_fraction (k : Nat) (w : Word) : BitVec.ofNat 32 (k * 2 ^ 32 + w.toNat) = w := by
  apply BitVec.eq_of_toNat_eq
  rw [BitVec.toNat_ofNat, Nat.mul_add_mod_of_lt w.isLt]

/-- Settles O39: the root of each prime, with its integer part found in the finite search. -/
theorem constantsAreRootsOfPrimes : Obligations.ConstantsAreRootsOfPrimes := by
  refine ⟨fun i => ?cube, fun i => ?square⟩
  case cube =>
    obtain ⟨k, -, hroot⟩ := kRom_isFloorCbrt i
    exact ⟨_, tablePrimes_getD i ▸ hroot, (ofNat_integer_add_fraction k _).symm⟩
  case square =>
    obtain ⟨k, -, hroot⟩ := h0_isFloorSqrt i
    exact ⟨_, tablePrimes_getD ⟨i.val, by omega⟩ ▸ hroot, (ofNat_integer_add_fraction k _).symm⟩

end Sys2Proof.Machine
end
